-- ==== Sys2Proof/Word.lean ====
section
/-! DEFINITION. The word types of CORE: bytes, 32-bit millisecond times, 16-bit timeouts (R10, R12, R23, R24). -/

namespace Sys2Proof

/-- A byte: 8 bits, unsigned (R10). -/
abbrev Byte := BitVec 8

/-- A time or timestamp: `W_TIME = 32` bits of milliseconds (R6, R12, R237). -/
abbrev Time := BitVec 32

/-- The width of the two tunable timeout registers and of the accessors' operand and result (R23, R24, R95). -/
abbrev Millis := BitVec 16

end Sys2Proof
end

