-- ==== Sys2Proof/Config.lean ====
section
/-! DEFINITION. The implementation parameters of R6 and their constraints R7, the three private byte arrays (R43), and the one
free value: a byte read outside its array. -/

namespace Sys2Proof

/-- `MAX_PAYLOAD` (R6): greatest payload length. -/
abbrev maxPayload : Nat := 177

/-- `RX_BUF_SIZE` (R6): size of `rx_buf`, and greatest legal value of the length field. -/
abbrev rxBufSize : Nat := 180

/-- `MIN_LENGTH` (R6): least legal value of the length field. -/
abbrev minLength : Nat := 3

/-- `TX_BUF_SIZE` (R6): size of `tx_buf`, `MAX_PAYLOAD + 5`. -/
abbrev txBufSize : Nat := 182

/-- The size of `dd_payload` (R40). -/
abbrev ddPayloadSize : Nat := 177

/-- The three private byte arrays (R43). -/
inductive Buffer where
  | rx
  | tx
  | dd
deriving DecidableEq, Repr

/-- The number of bytes of an array (R27, R33, R40). -/
def Buffer.size : Buffer → Nat
  | .rx => rxBufSize
  | .tx => txBufSize
  | .dd => ddPayloadSize

/-- FREE VALUE: the byte read at an index outside an array, for which the spec states none, while every operation is total on
every state (R222; log 8). It depends on the array, the index, and the number of events emitted before the read: an operation
that makes such a read emits an event after it, so that no two such reads of a run are bound to agree. -/
opaque Config.outsideByte : Buffer → Nat → Nat → Byte

/-- The `transport` option (R6, R25): static, read by no rule of CORE. -/
inductive Transport where
  | uart
  | spi
  | ethernet
deriving DecidableEq, Repr

/-- The static configuration record `Cfg` (R6). The marker bytes and kind codes are OPEN parameters of the spec (D2, D3). -/
structure Cfg where
  /-- `SOF`, the start-of-frame marker. -/
  sof : Byte
  /-- `ACK`, the acknowledge symbol. -/
  ack : Byte
  /-- `NAK`, the negative-acknowledge symbol. -/
  nak : Byte
  /-- `CAN`, the cancel symbol. -/
  can : Byte
  /-- `KIND_REQ`, the wire code of a Request. -/
  kindReq : Byte
  /-- `KIND_RSP`, the wire code of a Response. -/
  kindRsp : Byte
  /-- `MAX_RETRIES`, 0..255: the bound on retransmissions of one frame. -/
  maxRetries : Byte
  /-- `ACK_TIMEOUT_RESET`. -/
  ackTimeoutReset : Millis
  /-- `BYTE_TIMEOUT_RESET`. -/
  byteTimeoutReset : Millis
  /-- `DEDUP_WINDOW_MS`. -/
  dedupWindowMs : Time
  /-- `transport`. -/
  transport : Transport
deriving DecidableEq, Repr

/-- The default column of R6. `transport` has no default there; any value will do, since no rule reads it (log 1). -/
def Cfg.default : Cfg where
  sof := 0x01#8
  ack := 0x06#8
  nak := 0x15#8
  can := 0x18#8
  kindReq := 0x00#8
  kindRsp := 0x01#8
  maxRetries := 2#8
  ackTimeoutReset := 1600#16
  byteTimeoutReset := 250#16
  dedupWindowMs := 3200#32
  transport := .uart

/-- The constraints of R7: four distinct markers, two distinct kind codes, a dedup window below `2^(W_TIME-1)`.
(`0 <= MAX_RETRIES <= 255` holds of every byte.) -/
def Cfg.legal (c : Cfg) : Bool :=
  c.sof != c.ack && c.sof != c.nak && c.sof != c.can && c.ack != c.nak && c.ack != c.can && c.nak != c.can &&
    c.kindReq != c.kindRsp && decide (c.dedupWindowMs.toNat < 2 ^ 31)

end Sys2Proof
end

