-- ==== Sys2Proof/Syntax.lean ====
section
/-! DEFINITION. The operations and wire units of CORE (R9, R99): one constructor of `Instr` for each row of the opcode table;
the operand types (R13, R80, R90); and what the environment presents to CORE (R15, R46, R49, R95). -/

namespace Sys2Proof

/-- `Kind` (R13). -/
inductive Kind where
  | request
  | response
deriving DecidableEq, Repr

/-- `Frame` (R13); the invariant `len(payload) <= 177` is a check of `Instr.wellFormed`. -/
structure Frame where
  kind : Kind
  command : Byte
  payload : List Byte
deriving DecidableEq, Repr

/-- `Sym` (R13): the three control symbols. -/
inductive Sym where
  | ack
  | nak
  | can
deriving DecidableEq, Repr

/-- The five classes of a lead byte (R89, R113). -/
inductive LeadClass where
  | leadSof
  | symAck
  | symNak
  | symCan
  | noise
deriving DecidableEq, Repr

/-- The forms of a unit whose lead byte is `SOF`: what follows `SOF` on the wire (R80, R89, R90). The length byte is not a
field of `frame`, since it is the payload length plus 3 (R81). -/
inductive DataUnit where
  /-- A unit as long as its length field says. The kind and checksum bytes are raw: they may be wrong (R90 rows 4, 5). -/
  | frame (kind command : Byte) (payload : List Byte) (checksum : Byte)
  /-- `SOF` and a length byte outside 3..180: the unit ends there (R90 rows 2, 3). -/
  | badLength (length : Byte)
  /-- `SOF` and fewer bytes than the length field promises, or no length byte at all (R90 row 6). -/
  | stalled (tail : List Byte)
deriving DecidableEq, Repr

/-- The operations (R9) and wire units (R99), one constructor for each row of the opcode table. -/
inductive Instr where
  /-- DATA: a unit led by `SOF` is received (R80, R90). -/
  | data (unit : DataUnit) (now : Time)
  /-- ACK: the byte `ACK` is received (R88, R162). -/
  | ack (now : Time)
  /-- NAK: the byte `NAK` is received (R88, R163). -/
  | nak (now : Time)
  /-- CAN: the byte `CAN` is received (R88, R165). -/
  | can (now : Time)
  /-- NOISE: a byte that is no marker is received (R89, R132). -/
  | noise (b : Byte) (now : Time)
  /-- POLL (R200). -/
  | poll (now : Time)
  /-- TRANSMIT (R160). -/
  | transmit (command : Byte) (kind : Kind) (payload : List Byte) (now : Time)
  /-- GET_ACK_TIMEOUT (R204). -/
  | getAckTimeout
  /-- SET_ACK_TIMEOUT (R205). -/
  | setAckTimeout (value : Millis)
  /-- GET_BYTE_TIMEOUT (R206). -/
  | getByteTimeout
  /-- SET_BYTE_TIMEOUT (R207). -/
  | setByteTimeout (value : Millis)
  /-- RESERVED_OP6 (R95, R208). -/
  | reservedOp6
  /-- RESERVED_OP7 (R95, R208). -/
  | reservedOp7
  /-- CHECKSUM (R110). -/
  | checksum (bs : List Byte)
  /-- ENCODE (R111). -/
  | encode (command : Byte) (kind : Kind) (payload : List Byte)
  /-- DECODE (R112). -/
  | decode (bs : List Byte)
  /-- CLASSIFY (R113). -/
  | classify (b : Byte)
  /-- RXBYTE (R130). -/
  | rxbyte (b : Byte) (now : Time)
  /-- RXIDLE (R143). -/
  | rxidle (now : Time)
  /-- CTRL_ACK (R162). -/
  | ctrlAck (now : Time)
  /-- CTRL_NAK (R163). -/
  | ctrlNak (now : Time)
  /-- CTRL_CAN (R165). -/
  | ctrlCan (now : Time)
  /-- TXCHK (R166). -/
  | txchk (now : Time)
  /-- SCREEN (R190). -/
  | screen (f : Frame) (now : Time)
  /-- DDCHK (R193). -/
  | ddchk (now : Time)
  /-- RESET (R260). -/
  | reset
deriving DecidableEq, Repr

/-- The `format` column of the opcode table; RESET is INTERNAL there, with the note "reset input, not an op code", and has a
value of its own here. -/
inductive Format where
  | data
  | ctrl
  | host
  | internal
  | resetInput
deriving DecidableEq, Repr

/-- The format of each row. -/
def Instr.format : Instr → Format
  | .data _ _ => .data
  | .ack _ | .nak _ | .can _ | .noise _ _ => .ctrl
  | .poll _ | .transmit _ _ _ _ | .getAckTimeout | .setAckTimeout _ | .getByteTimeout | .setByteTimeout _
  | .reservedOp6 | .reservedOp7 => .host
  | .checksum _ | .encode _ _ _ | .decode _ | .classify _ | .rxbyte _ _ | .rxidle _ | .ctrlAck _ | .ctrlNak _
  | .ctrlCan _ | .txchk _ | .screen _ _ | .ddchk _ => .internal
  | .reset => .resetInput

/-- One transaction on the host command port: the 3-bit code and every operand field of R95 and R96. A code reads only
the fields its row of R95 names. -/
structure HostPort where
  op : BitVec 3
  now : Time
  command : Byte
  kind : BitVec 1
  plen : Byte
  payload : List Byte
  value : Millis
deriving DecidableEq, Repr

/-- An operation as it is presented, before decoding. -/
inductive Code where
  /-- Bytes on the wire; the first unit is decoded, what follows it stays for the next step. -/
  | wire (bytes : List Byte) (now : Time)
  /-- A transaction on the host command port (R95). -/
  | host (port : HostPort)
  /-- The reset input (R95, R260). -/
  | resetInput
  /-- An internal operation, which has no bit pattern (R99), by name; which of them can be a step is `issuable` (log 6). -/
  | named (i : Instr)
deriving DecidableEq, Repr

/-- One thing the environment does next (R8, R15): bytes arrive at the tail of the RX byte queue between operations
(R46, R71), or an operation is issued. -/
inductive Request where
  | arrive (bytes : List Byte)
  | issue (code : Code)
deriving DecidableEq, Repr

/-- Why a presented code is no operation. -/
inductive DecodeError where
  /-- No byte on the wire: there is no lead byte to decode. -/
  | emptyUnit
  /-- TRANSMIT with fewer payload bytes than `plen` says (R96). -/
  | missingPayload
  /-- A named operation that is not an internal one (it has a code of its own). -/
  | notInternal
  /-- A named operation whose operands break an invariant of R13. -/
  | illFormed
deriving DecidableEq, Repr

end Sys2Proof
end

