-- ==== Sys2Proof/Machine/Operands.lean ====
section
/-! DEFINITION. Operand forms and arithmetic: time (R12), byte lists (R10), kind codes (R13, R94), lead bytes (R89, R113), and
the codec's pure functions CHECKSUM, ENCODE, DECODE (R110 to R112). -/

namespace Sys2Proof

/-- `elapsed(now, t) = (now - t) mod 2^W_TIME` (R12). -/
def elapsed (now t : Time) : Time := now - t

/-- A deadline of length `T` armed at `t` has expired at `now` (R12, D5). -/
def expired (now t T : Time) : Bool := T.toNat ≤ (elapsed now t).toNat

/-- `zext_32` of a timeout register (R11). -/
def zext32 (T : Millis) : Time := T.zeroExtend 32

/-- `bs[i..j]`, the inclusive sub-list, empty when `j < i` (R10). -/
def slice (bs : List Byte) (i j : Nat) : List Byte := (bs.drop i).take (j + 1 - i)

/-- `bs[i]` for an index inside the list (R10). -/
def byteAt (bs : List Byte) (i : Nat) : Byte := bs.getD i 0#8

/-- `len(v)` stored in an 8-bit register or field. -/
def lenByte (n : Nat) : Byte := BitVec.ofNat 8 n

/-- `XOR(bs)` (R11). -/
def xorAll (bs : List Byte) : Byte := bs.foldl (· ^^^ ·) 0#8

/-- `CHECKSUM(bs)`, the complement of the running exclusive-or (R86, R110). -/
def checksum (bs : List Byte) : Byte := ~~~ xorAll bs

/-- `kind_code` (R13, R83). -/
def kindCode (cfg : Cfg) : Kind → Byte
  | .request => cfg.kindReq
  | .response => cfg.kindRsp

/-- `kind_of`, `none` for a byte that is neither code (R13). -/
def kindOf (cfg : Cfg) (b : Byte) : Option Kind :=
  if b = cfg.kindReq then some .request else if b = cfg.kindRsp then some .response else none

/-- The 1-bit `kind` of the host port (R94). -/
def kindBit : Kind → BitVec 1
  | .request => 0#1
  | .response => 1#1

/-- The kind a 1-bit host-port field stands for (R94). -/
def kindOfBit (k : BitVec 1) : Kind := if k = 0#1 then .request else .response

/-- `CLASSIFY(b)` (R89, R113). -/
def classify (cfg : Cfg) (b : Byte) : LeadClass :=
  if b = cfg.sof then .leadSof
  else if b = cfg.ack then .symAck
  else if b = cfg.nak then .symNak
  else if b = cfg.can then .symCan
  else .noise

/-- A legal value of the length field: 3..180 (R81, R133). -/
def legalLength (b : Byte) : Bool := minLength ≤ b.toNat && b.toNat ≤ rxBufSize

/-- The result of `ENCODE` (R111). -/
inductive EncodeResult where
  | bytes (bs : List Byte)
  | payloadTooLarge
deriving DecidableEq, Repr

/-- The result of `DECODE` (R112). -/
inductive DecodeResult where
  | frame (f : Frame)
  | checksumError
  | framingError
deriving DecidableEq, Repr

/-- The bytes of an encoded frame, whatever the payload's length (R80, R111). -/
def frameBytes (cfg : Cfg) (command : Byte) (kind : Kind) (payload : List Byte) : List Byte :=
  let body := [lenByte (payload.length + 3), kindCode cfg kind, command] ++ payload
  [cfg.sof] ++ body ++ [checksum body]

/-- `ENCODE(command, kind, payload)` (R111). -/
def encodeFrame (cfg : Cfg) (command : Byte) (kind : Kind) (payload : List Byte) : EncodeResult :=
  if maxPayload < payload.length then .payloadTooLarge else .bytes (frameBytes cfg command kind payload)

/-- `DECODE(bs)`, the four checks in the order of R112. -/
def decodeFrame (cfg : Cfg) (bs : List Byte) : DecodeResult :=
  let n := bs.length
  if n < 5 ∨ txBufSize < n ∨ byteAt bs 0 ≠ cfg.sof then .framingError
  else if byteAt bs (n - 1) ≠ checksum (slice bs 1 (n - 2)) then .checksumError
  else if (byteAt bs 1).toNat ≠ n - 2 then .framingError
  else
    match kindOf cfg (byteAt bs 2) with
    | none => .framingError
    | some k => .frame ⟨k, byteAt bs 3, slice bs 4 (n - 2)⟩

end Sys2Proof
end

