-- ==== Sys2Proof/WellFormed.lean ====
section
/-! DEFINITION. Which terms of `Instr` are operations with operands the spec admits. -/

namespace Sys2Proof

/-- A unit led by `SOF`: a whole frame has at most 177 payload bytes (R80), a `badLength` unit has an illegal length byte
(R90), a `stalled` one no length byte, or a legal one and fewer bytes than it promises (R81: `length` bytes follow). -/
def DataUnit.wellFormed : DataUnit → Bool
  | .frame _ _ payload _ => payload.length ≤ maxPayload
  | .badLength length => !legalLength length
  | .stalled [] => true
  | .stalled (length :: rest) => legalLength length && rest.length < length.toNat

/-- The operand checks: a NOISE byte is none of the four markers (R89), a TRANSMIT payload is countable by the 8-bit `plen`
(R96), the operand of SCREEN is a `Frame` (R13). Every other operand value is admitted. -/
def Instr.wellFormed (cfg : Cfg) : Instr → Bool
  | .data unit _ => unit.wellFormed
  | .noise b _ => Sys2Proof.classify cfg b == LeadClass.noise
  | .transmit _ _ payload _ => payload.length ≤ 255
  | .screen f _ => f.payload.length ≤ maxPayload
  | .ack _ | .nak _ | .can _ | .poll _ | .getAckTimeout | .setAckTimeout _ | .getByteTimeout | .setByteTimeout _
  | .reservedOp6 | .reservedOp7 | .checksum _ | .encode _ _ _ | .decode _ | .classify _ | .rxbyte _ _ | .rxidle _
  | .ctrlAck _ | .ctrlNak _ | .ctrlCan _ | .txchk _ | .ddchk _ | .reset => true

end Sys2Proof
end

