-- ==== Sys2Proof/Decode.lean ====
section
/-! DEFINITION. The decoder, total on every presented code and rejecting by name, and the encoder, both from the encoding
tables of 30_encoding.md (R80 to R99). -/

namespace Sys2Proof

/-- The part of a unit after `SOF`, and the bytes left (R81, R82, R89): the length byte, when it is legal, says how many
bytes follow it. -/
def decodeTail : List Byte → DataUnit × List Byte
  | [] => (.stalled [], [])
  | length :: rest =>
    if legalLength length then
      let n := length.toNat
      if n ≤ rest.length then
        (.frame (byteAt rest 0) (byteAt rest 1) ((rest.take (n - 1)).drop 2) (byteAt rest (n - 1)), rest.drop n)
      else (.stalled (length :: rest), [])
    else (.badLength length, rest)

/-- The lead-byte map (R89): the first unit of a byte list, and the bytes left. -/
def decodeWire (cfg : Cfg) (bytes : List Byte) (now : Time) : Except DecodeError (Instr × List Byte) :=
  match bytes with
  | [] => .error .emptyUnit
  | b :: rest =>
    match classify cfg b with
    | .leadSof => .ok (.data (decodeTail rest).1 now, (decodeTail rest).2)
    | .symAck => .ok (.ack now, rest)
    | .symNak => .ok (.nak now, rest)
    | .symCan => .ok (.can now, rest)
    | .noise => .ok (.noise b now, rest)

/-- The host command port (R95, R96). -/
def decodeHost (p : HostPort) : Except DecodeError Instr :=
  if p.op = 0#3 then .ok (.poll p.now)
  else if p.op = 1#3 then
    if p.payload.length < p.plen.toNat then .error .missingPayload
    else .ok (.transmit p.command (kindOfBit p.kind) (p.payload.take p.plen.toNat) p.now)
  else if p.op = 2#3 then .ok .getAckTimeout
  else if p.op = 3#3 then .ok (.setAckTimeout p.value)
  else if p.op = 4#3 then .ok .getByteTimeout
  else if p.op = 5#3 then .ok (.setByteTimeout p.value)
  else if p.op = 6#3 then .ok .reservedOp6
  else .ok .reservedOp7

/-- An internal operation presented by name (R99; log 6). -/
def decodeNamed (cfg : Cfg) (i : Instr) : Except DecodeError Instr :=
  if i.format ≠ .internal then .error .notInternal
  else if i.wellFormed cfg then .ok i
  else .error .illFormed

/-- What stays on the wire after the first unit, as a code for the next step. -/
def leftover (bytes : List Byte) (now : Time) : Option Code :=
  match bytes with
  | [] => none
  | _ :: _ => some (.wire bytes now)

/-- The decoder: the first operation of a presented code, and what is left of the code. -/
def decode (cfg : Cfg) : Code → Except DecodeError (Instr × Option Code)
  | .wire bytes now => (decodeWire cfg bytes now).map fun r => (r.1, leftover r.2 now)
  | .host p => (decodeHost p).map fun i => (i, none)
  | .resetInput => .ok (.reset, none)
  | .named i => (decodeNamed cfg i).map fun j => (j, none)

/-- The bytes after `SOF` of a unit (R80, R81). -/
def encodeTail : DataUnit → List Byte
  | .frame kind command payload sum => [lenByte (payload.length + 3), kind, command] ++ payload ++ [sum]
  | .badLength length => [length]
  | .stalled tail => tail

/-- The port with every operand field at zero, as an operation that reads none of them is encoded. -/
def HostPort.plain (op : BitVec 3) : HostPort := ⟨op, 0#32, 0#8, 0#1, 0#8, [], 0#16⟩

/-- The encoder (R80, R88, R95, R96, R99). -/
def encode (cfg : Cfg) : Instr → Code
  | .data unit now => .wire (cfg.sof :: encodeTail unit) now
  | .ack now => .wire [cfg.ack] now
  | .nak now => .wire [cfg.nak] now
  | .can now => .wire [cfg.can] now
  | .noise b now => .wire [b] now
  | .poll now => .host { HostPort.plain 0#3 with now := now }
  | .transmit command kind payload now =>
    .host { HostPort.plain 1#3 with
      now := now, command := command, kind := kindBit kind, plen := lenByte payload.length, payload := payload }
  | .getAckTimeout => .host (HostPort.plain 2#3)
  | .setAckTimeout value => .host { HostPort.plain 3#3 with value := value }
  | .getByteTimeout => .host (HostPort.plain 4#3)
  | .setByteTimeout value => .host { HostPort.plain 5#3 with value := value }
  | .reservedOp6 => .host (HostPort.plain 6#3)
  | .reservedOp7 => .host (HostPort.plain 7#3)
  | .reset => .resetInput
  | .checksum bs => .named (.checksum bs)
  | .encode command kind payload => .named (.encode command kind payload)
  | .decode bs => .named (.decode bs)
  | .classify b => .named (.classify b)
  | .rxbyte b now => .named (.rxbyte b now)
  | .rxidle now => .named (.rxidle now)
  | .ctrlAck now => .named (.ctrlAck now)
  | .ctrlNak now => .named (.ctrlNak now)
  | .ctrlCan now => .named (.ctrlCan now)
  | .txchk now => .named (.txchk now)
  | .screen f now => .named (.screen f now)
  | .ddchk now => .named (.ddchk now)

/-- The `n` bytes of a number whose bits 7..0 are the first byte (the opcode table's numbering). -/
def bytesOfNat : Nat → Nat → List Byte
  | 0, _ => []
  | n + 1, w => BitVec.ofNat 8 w :: bytesOfNat n (w / 256)

/-- How many more bytes the first unit of a byte list needs (R81, R89): the length byte after `SOF`, and then as many as it
says; a zero length byte is illegal and ends the unit. -/
def bytesMissing (cfg : Cfg) (bytes : List Byte) : Nat :=
  match bytes with
  | [] => 1
  | b :: rest =>
    if classify cfg b = .leadSof then
      match rest with
      | [] => 1
      | length :: more => if legalLength length then length.toNat - more.length else 0
    else 0

/-- The code an opcode-table word stands for (log 11): a row of fewer than 8 bits is a host-port code with every operand
field zero; a row of whole bytes is on the wire at time 0, with a zero for every byte its unit still needs. -/
def tableCode (nbits w : Nat) : Code :=
  if nbits < 8 then .host (HostPort.plain (BitVec.ofNat 3 w))
  else
    let bytes := bytesOfNat (nbits / 8) w
    .wire (bytes ++ List.replicate (bytesMissing Cfg.default bytes) 0#8) 0#32

/-- What the decoder reads from an opcode-table word, with the default parameters the table uses (R99). -/
def decodeTableWord (nbits w : Nat) : Option Instr :=
  match decode Cfg.default (tableCode nbits w) with
  | .ok r => some r.1
  | .error _ => none

end Sys2Proof
end

