-- ==== Sys2Proof/Machine/State.lean ====
section
/-! DEFINITION. The state of the machine (R23 to R45), the output events (R53), the results (R9, R49), and the reasons a step
can stop. -/

namespace Sys2Proof.Machine

/-- A private byte array (R43): (index, byte) cells, indexes strictly rising, no cell holding the `0x00` that an unlisted
index reads as, so that equal contents are equal data (`Memory.wf`). `0x00` is what the spec says cleared storage holds
(R45, D20). -/
abbrev Memory := List Host.Cell

/-- `rx_state` (R26): the six legal values. -/
inductive RxState where
  | waitSof
  | waitLength
  | waitKind
  | waitCommand
  | waitPayload
  | waitChecksum
deriving DecidableEq, Repr

/-- The Receive Assembly State (R26 to R31), owned by the Receive Assembler (R43). -/
structure RxAssembly where
  /-- `rx_state` (R26). -/
  state : RxState
  /-- `rx_buf[0..179]` (R27). -/
  buf : Memory
  /-- `rx_count` (R28). -/
  count : Byte
  /-- `rx_remaining` (R29). -/
  remaining : Byte
  /-- `rx_last_time` (R30). -/
  lastTime : Time
deriving DecidableEq, Repr

/-- The Outstanding Transmission (R32 to R37), owned by the Transmit/ACK Controller (R43). -/
structure Outstanding where
  /-- `tx_valid` (R32), the flag `busy` of R22. -/
  valid : Bool
  /-- `tx_buf[0..181]` (R33). -/
  buf : Memory
  /-- `tx_len` (R34). -/
  len : Byte
  /-- `tx_retry` (R35). -/
  retry : Byte
  /-- `tx_send_time` (R36). -/
  sendTime : Time
deriving DecidableEq, Repr

/-- The Dedup Record (R38 to R42), owned by Duplicate Suppression (R43). -/
structure DedupRecord where
  /-- `dd_valid` (R38). -/
  valid : Bool
  /-- `dd_cmd` (R39). -/
  cmd : Byte
  /-- `dd_plen` (R40). -/
  plen : Byte
  /-- `dd_payload[0..176]` (R40). -/
  payload : Memory
  /-- `dd_time` (R41). -/
  time : Time
deriving DecidableEq, Repr

/-- The Receive Assembly State as `rx_reset` leaves it (R131) and after reset (R45). -/
def RxAssembly.idle : RxAssembly := ⟨.waitSof, [], 0#8, 0#8, 0#32⟩

/-- The Outstanding Transmission as `tx_clear` leaves it (R167) and after reset (R45): none exists. -/
def Outstanding.cleared : Outstanding := ⟨false, [], 0#8, 0#8, 0#32⟩

/-- The Dedup Record as `DDCHK` leaves it on expiry (R193) and after reset (R45): absent. -/
def DedupRecord.absent : DedupRecord := ⟨false, 0#8, 0#8, [], 0#32⟩

/-- `TxStatus` (R13). -/
inductive TxStatus where
  | success
  | failTimeout
  | failNak
  | failCancelled
deriving DecidableEq, Repr

/-- The cause of a step of the retry budget (R53, R164). -/
inductive RetryCause where
  | nak
  | timeout
deriving DecidableEq, Repr

/-- The output events (R53). -/
inductive Event where
  /-- `TxBytes(bs)`: the bytes are written to the TX byte stream. -/
  | txBytes (bs : List Byte)
  /-- `Deliver(frame)`: the frame is handed to the dispatcher. -/
  | deliver (f : Frame)
  /-- `TxAcked`, the source's `on_ack`. -/
  | txAcked
  /-- `TxDone(status)`, the source's `on_done`. -/
  | txDone (status : TxStatus)
  /-- `EvFrameReceived`. -/
  | evFrameReceived
  /-- `EvDupSuppressed`. -/
  | evDupSuppressed
  /-- `EvChecksumFailed`. -/
  | evChecksumFailed
  /-- `EvBadLength(b)`. -/
  | evBadLength (b : Byte)
  /-- `EvBadKind(b)`. -/
  | evBadKind (b : Byte)
  /-- `EvNoise(b)`. -/
  | evNoise (b : Byte)
  /-- `EvStray(sym)`. -/
  | evStray (sym : Sym)
  /-- `EvRxTimeout`. -/
  | evRxTimeout
  /-- `EvRetransmit(cause)`. -/
  | evRetransmit (cause : RetryCause)
deriving DecidableEq, Repr

/-- `Outcome` (R13), the result of POLL, in the order of R92. -/
inductive PollOutcome where
  | idle
  | frameReceived
  | frameSent
  | frameError
  | rxTimeout
  | txTimeout
deriving DecidableEq, Repr

/-- `TransmitResult` (R93). -/
inductive TransmitResult where
  | accepted
  | busy
  | payloadTooLarge
deriving DecidableEq, Repr

/-- The result of an operation (R9, R49, R95). -/
inductive Result where
  /-- No result: RXIDLE, CTRL_*, TXCHK, SCREEN, DDCHK, SET_*, RESET and the reserved codes. -/
  | none
  /-- The terminal flag of RXBYTE (R141); for a wire unit, that of its last byte. -/
  | terminal (t : Bool)
  /-- The `Outcome` of POLL. -/
  | outcome (o : PollOutcome)
  /-- The result of TRANSMIT. -/
  | transmit (r : TransmitResult)
  /-- The 16-bit value of GET_ACK_TIMEOUT and GET_BYTE_TIMEOUT. -/
  | value (v : Millis)
  /-- The byte of CHECKSUM. -/
  | byte (b : Byte)
  /-- The result of ENCODE. -/
  | encoded (r : EncodeResult)
  /-- The result of DECODE. -/
  | decoded (r : DecodeResult)
  /-- The result of CLASSIFY. -/
  | lead (c : LeadClass)
deriving DecidableEq, Repr

/-- The whole state: the registers of `St` (R45) and, after them, what R54 puts in the environment's state. -/
structure State where
  /-- `ack_timeout_ms` (R23). -/
  ackTimeoutMs : Millis
  /-- `byte_timeout_ms` (R24). -/
  byteTimeoutMs : Millis
  /-- The Receive Assembly State (R26 to R30). -/
  rx : RxAssembly
  /-- The Outstanding Transmission (R32 to R36). -/
  tx : Outstanding
  /-- The Dedup Record (R38 to R41). -/
  dd : DedupRecord
  /-- The static configuration (R6); no operation writes it (log 1). -/
  cfg : Cfg
  /-- The RX byte queue, head first (R46). -/
  rxq : List Byte
  /-- Every event emitted so far, oldest first (R53; log 3); its length is the counter of the free value (log 8). -/
  events : List Event
  /-- The result of the last operation (R49; log 3). -/
  result : Result
  /-- What the environment does next, soonest first (R8, R15; log 2). -/
  requests : List Request
deriving DecidableEq, Repr

/-- The reasons a step can stop with a fault: there are none. "A model needs no fault state for CORE: every operation is total
on every `St`" (R222). -/
inductive Fault where
deriving DecidableEq, Repr

/-- The reasons a step is refused. -/
inductive Refusal where
  /-- Raised by `exec` for an instruction without a meaning; no arm uses it. Safe. -/
  | notModelled (mnemonic : String)
  /-- Raised by `step` when `Cfg` breaks a constraint of R7: "A `Cfg` that breaks a constraint is refused by the model". Safe. -/
  | illegalCfg
  /-- Raised by `step` on a request that is no operation (log 7). Safe. -/
  | undecodable (e : DecodeError)
  /-- Raised by `step` on a sub-step of RXBYTE ("not separately issuable", R98) or a pure operation of the codec (R9: not
  reachable from outside). `exec` gives each its meaning. Safe. -/
  | notIssuable (i : Instr)
deriving DecidableEq, Repr

/-- The state right after RESET (R45, R260), with the default parameters, an empty queue and nothing requested. -/
def State.reset : State where
  ackTimeoutMs := 1600#16
  byteTimeoutMs := 250#16
  rx := RxAssembly.idle
  tx := Outstanding.cleared
  dd := DedupRecord.absent
  cfg := Cfg.default
  rxq := []
  events := []
  result := .none
  requests := []

end Sys2Proof.Machine
end

