-- ==== Sys2Proof/Machine/Flags.lean ====
section
/-! DEFINITION. Status conditions (R22), pending conditions of the three timers (R229, R236), the poll outcome of a list of
events (R202), the condition table (R223), the ports of the events (R53), and the numeric codes (R26, R92 to R95). -/

namespace Sys2Proof.Machine

/-- `busy` (R22): `tx_valid`. -/
def State.busy (s : State) : Bool := s.tx.valid

/-- `rx_active` (R22): a non-idle state of the assembler. -/
def State.rxActive (s : State) : Bool := s.rx.state != .waitSof

/-- The byte deadline is pending (R130, R143, R229). -/
def State.byteDeadline (s : State) (now : Time) : Bool :=
  s.rxActive && expired now s.rx.lastTime (zext32 s.byteTimeoutMs)

/-- The ack deadline is pending (R166, R229). -/
def State.ackDeadline (s : State) (now : Time) : Bool :=
  s.busy && expired now s.tx.sendTime (zext32 s.ackTimeoutMs)

/-- The dedup window has ended (R193, R229). -/
def State.dedupEnded (s : State) (now : Time) : Bool :=
  s.dd.valid && expired now s.dd.time s.cfg.dedupWindowMs

/-- `fresh(now)` (R190): within the dedup window. -/
def State.fresh (s : State) (now : Time) : Bool :=
  (elapsed now s.dd.time).toNat < s.cfg.dedupWindowMs.toNat

/-- The codes of `rx_state` (R26, D25). -/
def RxState.code : RxState → BitVec 3
  | .waitSof => 0#3
  | .waitLength => 1#3
  | .waitKind => 2#3
  | .waitCommand => 3#3
  | .waitPayload => 4#3
  | .waitChecksum => 5#3

/-- The codes of `Outcome` (R92). -/
def PollOutcome.code : PollOutcome → BitVec 3
  | .idle => 0#3
  | .frameReceived => 1#3
  | .frameSent => 2#3
  | .frameError => 3#3
  | .rxTimeout => 4#3
  | .txTimeout => 5#3

/-- The codes of `TransmitResult` (R93). -/
def TransmitResult.code : TransmitResult → BitVec 2
  | .accepted => 0#2
  | .busy => 1#2
  | .payloadTooLarge => 2#2

/-- The codes of `TxStatus` (R93). -/
def TxStatus.code : TxStatus → BitVec 2
  | .success => 0#2
  | .failTimeout => 1#2
  | .failNak => 2#2
  | .failCancelled => 3#2

/-- The `Outcome` an event maps to (the table of R202). -/
def Event.outcome : Event → PollOutcome
  | .evFrameReceived => .frameReceived
  | .txDone .success => .frameSent
  | .evChecksumFailed | .evBadLength _ | .evBadKind _ => .frameError
  | .evRxTimeout => .rxTimeout
  | .txDone .failTimeout | .txDone .failNak | .txDone .failCancelled => .txTimeout
  | .txBytes _ | .deliver _ | .txAcked | .evDupSuppressed | .evNoise _ | .evStray _ | .evRetransmit _ => .idle

/-- The more significant of two outcomes: the greater code (R92, R202). -/
def PollOutcome.max (a b : PollOutcome) : PollOutcome := if a.code.toNat < b.code.toNat then b else a

/-- `outcome_of(events)` (R202). -/
def outcomeOf (es : List Event) : PollOutcome := es.foldl (fun o e => o.max e.outcome) .idle

/-- The output ports of CORE (R47, R50, R51, R52). -/
inductive OutPort where
  | txStream
  | delivery
  | completion
  | status
deriving DecidableEq, Repr

/-- The port an event appears on (R53). -/
def Event.port : Event → OutPort
  | .txBytes _ => .txStream
  | .deliver _ => .delivery
  | .txAcked | .txDone _ => .completion
  | .evFrameReceived | .evDupSuppressed | .evChecksumFailed | .evBadLength _ | .evBadKind _ | .evNoise _ | .evStray _
  | .evRxTimeout | .evRetransmit _ => .status

/-- The bytes one event writes to the TX byte stream (R47, R72). -/
def Event.sent : Event → List Byte
  | .txBytes bs => bs
  | _ => []

/-- The TX byte stream so far (R47, R72): the bytes of the `TxBytes` events in order. -/
def State.txStream (s : State) : List Byte := s.events.flatMap Event.sent

/-- The conditions of R223. -/
inductive Condition where
  | payloadTooLarge
  | busy
  | checksumError
  | framingError
  | rxTimeout
  | txTimeout
  | failedByNak
  | cancelled
deriving DecidableEq, Repr

/-- The codes of the conditions (R223, D26). -/
def Condition.code : Condition → Nat
  | .payloadTooLarge => 1
  | .busy => 2
  | .checksumError => 3
  | .framingError => 4
  | .rxTimeout => 5
  | .txTimeout => 6
  | .failedByNak => 7
  | .cancelled => 8

/-- The condition an event reports (the "reported as" column of R223). -/
def Event.condition : Event → Option Condition
  | .evChecksumFailed => some .checksumError
  | .evNoise _ | .evBadLength _ | .evBadKind _ => some .framingError
  | .evRxTimeout => some .rxTimeout
  | .txDone .failTimeout => some .txTimeout
  | .txDone .failNak => some .failedByNak
  | .txDone .failCancelled => some .cancelled
  | .txDone .success | .txBytes _ | .deliver _ | .txAcked | .evFrameReceived | .evDupSuppressed | .evStray _
  | .evRetransmit _ => none

/-- The condition the result of TRANSMIT reports (R220, R221, R223). -/
def TransmitResult.condition : TransmitResult → Option Condition
  | .accepted => none
  | .busy => some .busy
  | .payloadTooLarge => some .payloadTooLarge

/-- A value on the host command port: its width in bits and its value (R95). -/
structure PortValue where
  width : Nat
  value : Nat
deriving DecidableEq, Repr

/-- What the host command port carries back for a result (R92, R93, R95); internal results are not on the port. -/
def Result.onPort : Result → Option PortValue
  | .outcome o => some ⟨3, o.code.toNat⟩
  | .transmit r => some ⟨2, r.code.toNat⟩
  | .value v => some ⟨16, v.toNat⟩
  | .none | .terminal _ | .byte _ | .encoded _ | .decoded _ | .lead _ => Option.none

end Sys2Proof.Machine
end

