-- ==== Sys2Proof/Machine/Ops.lean ====
section
/-! DEFINITION. The shared operations the meanings are made of: buffer accesses, events, the clearing of a sub-block, and the
procedures of files 41 to 44 that more than one operation runs. CORE has no trap: a condition of R223 is an event and a
return of the sub-block to its idle state (R222, R232), so taking one is `rxReset` or `txClear` after an `emit`. -/

namespace Sys2Proof.Machine

/-- `emit E` (R11, R53). -/
def emit (e : Event) (s : State) : State := { s with events := s.events ++ [e] }

/-- `send bs` (R11, R47). -/
def send (bs : List Byte) (s : State) : State := emit (.txBytes bs) s

/-- `rx_reset()` (R131). -/
def rxReset (s : State) : State := { s with rx := RxAssembly.idle }

/-- `tx_clear()` (R167). -/
def txClear (s : State) : State := { s with tx := Outstanding.cleared }

/-- The Dedup Record dropped (R193, R260). -/
def ddClear (s : State) : State := { s with dd := DedupRecord.absent }

/-- The bytes `0 .. n-1` of an array (R63); a byte outside the array is a free value (R222; log 8). -/
def loadArray (a : Buffer) (m : Memory) (n : Nat) (s : State) : List Byte :=
  m.readBytes 0 (min n a.size) ++
    (List.range' a.size (n - a.size)).map fun i => Config.outsideByte a i s.events.length

/-- `rx_buf[i] <- b` (R63); outside the 180 bytes (R27) nothing is stored (R222; log 8). -/
def storeRx (i : Nat) (b : Byte) (s : State) : State :=
  if i < rxBufSize then { s with rx := { s.rx with buf := s.rx.buf.write i b } } else s

/-- `rx_buf[0 .. n-1]` (R63). -/
def loadRx (n : Nat) (s : State) : List Byte := loadArray .rx s.rx.buf n s

/-- `tx_buf[0 .. len(bs)-1] <- bs` (R63); outside the 182 bytes (R33) nothing is stored. -/
def storeTx (bs : List Byte) (s : State) : State :=
  { s with tx := { s.tx with buf := s.tx.buf.writeBytes 0 (bs.take txBufSize) } }

/-- `tx_buf[0 .. n-1]` (R63). -/
def loadTx (n : Nat) (s : State) : List Byte := loadArray .tx s.tx.buf n s

/-- `dd_payload[0 .. n-1]` (R63). -/
def loadDd (n : Nat) (s : State) : List Byte := loadArray .dd s.dd.payload n s

/-- `dd_payload[0 .. len(bs)-1] <- bs` and `0x00` above (R63, R191); outside the 177 bytes (R40) nothing is stored (log 8). -/
def storeDd (bs : List Byte) (s : State) : State :=
  { s with dd := { s.dd with payload := Memory.writeBytes [] 0 (bs.take ddPayloadSize) } }

/-! ### Transmit/ACK Controller -/

/-- `retry_or_fail(now, cause)` (R164). -/
def retryOrFail (now : Time) (cause : RetryCause) (s : State) : State :=
  if s.tx.retry.toNat < s.cfg.maxRetries.toNat then
    let s := send (loadTx s.tx.len.toNat s) { s with tx := { s.tx with retry := s.tx.retry + 1#8 } }
    emit (.evRetransmit cause) { s with tx := { s.tx with sendTime := now } }
  else
    match cause with
    | .nak => txClear (emit (.txDone .failNak) s)
    | .timeout => txClear (emit (.txDone .failTimeout) s)

/-- `CTRL_ACK(now)` (R161, R162). -/
def ctrlAck (_now : Time) (s : State) : State :=
  if s.busy then txClear (emit (.txDone .success) (emit .txAcked s)) else emit (.evStray .ack) s

/-- `CTRL_NAK(now)` (R161, R163). -/
def ctrlNak (now : Time) (s : State) : State :=
  if s.busy then retryOrFail now .nak s else emit (.evStray .nak) s

/-- `CTRL_CAN(now)` (R161, R165). -/
def ctrlCan (_now : Time) (s : State) : State :=
  if s.busy then txClear (emit (.txDone .failCancelled) s) else emit (.evStray .can) s

/-- `TXCHK(now)` (R166). -/
def txchk (now : Time) (s : State) : State :=
  if s.ackDeadline now then retryOrFail now .timeout s else s

/-! ### Duplicate Suppression -/

/-- `same(f)` (R190): command, length and content, byte for byte; the kind is not compared (R196). -/
def sameFrame (f : Frame) (s : State) : Bool :=
  decide (s.dd.valid = true ∧ s.dd.cmd = f.command ∧ s.dd.plen.toNat = f.payload.length ∧
    loadDd s.dd.plen.toNat s = f.payload)

/-- `deliver(f, now)` (R191). -/
def deliver (f : Frame) (now : Time) (s : State) : State :=
  let s := storeDd f.payload (send [s.cfg.ack] (emit (.deliver f) s))
  let s := { s with dd := { s.dd with valid := true, cmd := f.command, plen := lenByte f.payload.length, time := now } }
  emit .evFrameReceived s

/-- `suppress(f, now)` (R192). -/
def suppress (s : State) : State := emit .evDupSuppressed (send [s.cfg.ack] s)

/-- `SCREEN(f, now)` (R190). -/
def screen (f : Frame) (now : Time) (s : State) : State :=
  if sameFrame f s && s.fresh now then suppress s else deliver f now s

/-- `DDCHK(now)` (R193). -/
def ddchk (now : Time) (s : State) : State := if s.dedupEnded now then ddClear s else s

/-! ### Receive Assembler -/

/-- The byte-deadline test that RXBYTE runs before its arm (R130) and that RXIDLE is (R143). -/
def rxTimeoutCheck (now : Time) (s : State) : State :=
  if s.byteDeadline now then rxReset (emit .evRxTimeout s) else s

/-- `arm_sof(b, now)` (R132). -/
def armSof (b : Byte) (now : Time) (s : State) : State × Bool :=
  match classify s.cfg b with
  | .leadSof => ({ s with rx := { s.rx with state := .waitLength, lastTime := now } }, false)
  | .symAck => (ctrlAck now s, false)
  | .symNak => (ctrlNak now s, false)
  | .symCan => (ctrlCan now s, false)
  | .noise => (emit (.evNoise b) s, false)

/-- `arm_length(b, now)` (R133). -/
def armLength (b : Byte) (now : Time) (s : State) : State × Bool :=
  if legalLength b then
    let s := storeRx 0 b s
    ({ s with rx := { s.rx with count := 1#8, remaining := b - 3#8, lastTime := now, state := .waitKind } }, false)
  else (rxReset (emit (.evBadLength b) s), true)

/-- `arm_kind(b, now)` (R134). -/
def armKind (b : Byte) (now : Time) (s : State) : State × Bool :=
  let s := storeRx 1 b s
  ({ s with rx := { s.rx with count := 2#8, lastTime := now, state := .waitCommand } }, false)

/-- The state after a byte that may be the last before the checksum (R135, R136). -/
def nextField (remaining : Byte) : RxState := if remaining = 0#8 then .waitChecksum else .waitPayload

/-- `arm_command(b, now)` (R135). -/
def armCommand (b : Byte) (now : Time) (s : State) : State × Bool :=
  let s := storeRx 2 b s
  ({ s with rx := { s.rx with count := 3#8, lastTime := now, state := nextField s.rx.remaining } }, false)

/-- `arm_payload(b, now)` (R136). -/
def armPayload (b : Byte) (now : Time) (s : State) : State × Bool :=
  let s := storeRx s.rx.count.toNat b s
  ({ s with rx :=
    { s.rx with
      count := s.rx.count + 1#8, remaining := s.rx.remaining - 1#8, lastTime := now,
      state := nextField (s.rx.remaining - 1#8) } }, false)

/-- `end_checksum_failed()` (R138). -/
def endChecksumFailed (s : State) : State := rxReset (send [s.cfg.nak] (emit .evChecksumFailed s))

/-- `end_bad_kind(k)` (R139). -/
def endBadKind (k : Byte) (s : State) : State := rxReset (emit (.evBadKind k) s)

/-- `arm_checksum(b, now)` (R137) and the three ends of a frame (R138, R139, R140). -/
def armChecksum (b : Byte) (now : Time) (s : State) : State × Bool :=
  let stored := loadRx s.rx.count.toNat s
  if b ≠ checksum stored then (endChecksumFailed s, true)
  else
    match kindOf s.cfg (s.rx.buf.read 1) with
    | none => (endBadKind (s.rx.buf.read 1) s, true)
    | some k => (screen ⟨k, s.rx.buf.read 2, stored.drop 3⟩ now (rxReset s), true)

/-- The arm of the current state (R130 step (b)). -/
def rxArm (b : Byte) (now : Time) (s : State) : State × Bool :=
  match s.rx.state with
  | .waitSof => armSof b now s
  | .waitLength => armLength b now s
  | .waitKind => armKind b now s
  | .waitCommand => armCommand b now s
  | .waitPayload => armPayload b now s
  | .waitChecksum => armChecksum b now s

/-- `RXBYTE(b, now)` (R130): the pre-check, then one arm; the new state and the terminal flag (R141). -/
def rxByte (b : Byte) (now : Time) (s : State) : State × Bool := rxArm b now (rxTimeoutCheck now s)

/-- The bytes of a wire unit, one RXBYTE each, all at the same `now` (R118; log 4); the terminal flag is the last byte's. -/
def rxBytes (now : Time) : List Byte → State × Bool → State × Bool
  | [], r => r
  | b :: bs, r => rxBytes now bs (rxByte b now r.1)

/-! ### Poll Driver -/

/-- The feed loop of POLL (R200, R201): bytes are popped from the head of the queue until none is left or one is terminal. -/
def feedLoop (now : Time) : List Byte → State → State
  | [], s => { s with rxq := [] }
  | b :: q, s =>
    let r := rxByte b now { s with rxq := q }
    if r.2 then r.1 else feedLoop now q r.1

/-- The steps of POLL before its result (R200). -/
def pollSteps (now : Time) (s : State) : State :=
  let s := ddchk now s
  let s := feedLoop now s.rxq s
  txchk now (rxTimeoutCheck now s)

/-! ### How an operation ends -/

/-- The operation ends with a result (R49). -/
def finish (r : Result) (s : State) : Host.Outcome State Fault Refusal := .next { s with result := r }

/-- The end of RXBYTE and of a wire unit: the result is the terminal flag (R141). -/
def finishByte (r : State × Bool) : Host.Outcome State Fault Refusal := finish (.terminal r.2) r.1

end Sys2Proof.Machine
end

