-- ==== Sys2Proof/Machine/Codec.lean ====
section
/-! DEFINITION. The meanings of the Frame Codec's operations (40_codec.md): pure, so only the result is written. -/

namespace Sys2Proof.Machine

/-- CHECKSUM (R110). -/
def execChecksum (bs : List Byte) (s : State) : Host.Outcome State Fault Refusal :=
  finish (.byte (checksum bs)) s

/-- ENCODE (R111). -/
def execEncode (command : Byte) (kind : Kind) (payload : List Byte) (s : State) : Host.Outcome State Fault Refusal :=
  finish (.encoded (encodeFrame s.cfg command kind payload)) s

/-- DECODE (R112). -/
def execDecode (bs : List Byte) (s : State) : Host.Outcome State Fault Refusal :=
  finish (.decoded (decodeFrame s.cfg bs)) s

/-- CLASSIFY (R113). -/
def execClassify (b : Byte) (s : State) : Host.Outcome State Fault Refusal :=
  finish (.lead (classify s.cfg b)) s

end Sys2Proof.Machine
end

