-- ==== Sys2Proof/Machine/Dedup.lean ====
section
/-! DEFINITION. The meanings of Duplicate Suppression's operations (43_duplicate_detector.md). -/

namespace Sys2Proof.Machine

/-- SCREEN (R190, R191, R192). -/
def execScreen (f : Frame) (now : Time) (s : State) : Host.Outcome State Fault Refusal :=
  finish .none (screen f now s)

/-- DDCHK (R193). -/
def execDdchk (now : Time) (s : State) : Host.Outcome State Fault Refusal :=
  finish .none (ddchk now s)

end Sys2Proof.Machine
end

