-- ==== Sys2Proof/Machine/Poll.lean ====
section
/-! DEFINITION. The meanings of POLL, the accessors, the reserved codes (44_poll_and_config.md, R95) and RESET (R260). -/

namespace Sys2Proof.Machine

/-- POLL (R200): its steps, then the most significant outcome of the events they emitted (R202). -/
def execPoll (now : Time) (s : State) : Host.Outcome State Fault Refusal :=
  let t := pollSteps now s
  finish (.outcome (outcomeOf (t.events.drop s.events.length))) t

/-- GET_ACK_TIMEOUT (R204). -/
def execGetAckTimeout (s : State) : Host.Outcome State Fault Refusal :=
  finish (.value s.ackTimeoutMs) s

/-- SET_ACK_TIMEOUT (R205). -/
def execSetAckTimeout (value : Millis) (s : State) : Host.Outcome State Fault Refusal :=
  finish .none { s with ackTimeoutMs := value }

/-- GET_BYTE_TIMEOUT (R206). -/
def execGetByteTimeout (s : State) : Host.Outcome State Fault Refusal :=
  finish (.value s.byteTimeoutMs) s

/-- SET_BYTE_TIMEOUT (R207). -/
def execSetByteTimeout (value : Millis) (s : State) : Host.Outcome State Fault Refusal :=
  finish .none { s with byteTimeoutMs := value }

/-- Code 6: "no state change, no event, no result" (R95, R208; log 5). -/
def execReservedOp6 (s : State) : Host.Outcome State Fault Refusal :=
  finish .none s

/-- Code 7: "no state change, no event, no result" (R95, R208; log 5). -/
def execReservedOp7 (s : State) : Host.Outcome State Fault Refusal :=
  finish .none s

/-- RESET (R260): every register of `St`; nothing of what R262 says it does not touch. -/
def execReset (s : State) : Host.Outcome State Fault Refusal :=
  finish .none (ddClear (txClear (rxReset
    { s with ackTimeoutMs := s.cfg.ackTimeoutReset, byteTimeoutMs := s.cfg.byteTimeoutReset })))

end Sys2Proof.Machine
end

