-- ==== Sys2Proof/Machine/Receive.lean ====
section
/-! DEFINITION. The meanings of the Receive Assembler's operations (41_receive_assembler.md). -/

namespace Sys2Proof.Machine

/-- RXBYTE (R130 to R142). -/
def execRxbyte (b : Byte) (now : Time) (s : State) : Host.Outcome State Fault Refusal :=
  finishByte (rxByte b now s)

/-- RXIDLE (R143). -/
def execRxidle (now : Time) (s : State) : Host.Outcome State Fault Refusal :=
  finish .none (rxTimeoutCheck now s)

end Sys2Proof.Machine
end

