-- ==== Sys2Proof/Machine/Transmit.lean ====
section
/-! DEFINITION. The meanings of the Transmit/ACK Controller's operations (42_transmit_controller.md). -/

namespace Sys2Proof.Machine

/-- An accepted TRANSMIT of the encoded bytes (R160): stored, stamped and sent once. -/
def acceptTransmit (bs : List Byte) (now : Time) (s : State) : State :=
  let s := storeTx bs s
  let s := { s with tx := { s.tx with len := lenByte bs.length, retry := 0#8, sendTime := now, valid := true } }
  send bs s

/-- TRANSMIT (R160): `Busy` is tested before `PayloadTooLarge` (R231). -/
def execTransmit (command : Byte) (kind : Kind) (payload : List Byte) (now : Time) (s : State) :
    Host.Outcome State Fault Refusal :=
  if s.busy then finish (.transmit .busy) s
  else
    match encodeFrame s.cfg command kind payload with
    | .payloadTooLarge => finish (.transmit .payloadTooLarge) s
    | .bytes bs => finish (.transmit .accepted) (acceptTransmit bs now s)

/-- CTRL_ACK (R161, R162). -/
def execCtrlAck (now : Time) (s : State) : Host.Outcome State Fault Refusal :=
  finish .none (ctrlAck now s)

/-- CTRL_NAK (R161, R163, R164). -/
def execCtrlNak (now : Time) (s : State) : Host.Outcome State Fault Refusal :=
  finish .none (ctrlNak now s)

/-- CTRL_CAN (R161, R165). -/
def execCtrlCan (now : Time) (s : State) : Host.Outcome State Fault Refusal :=
  finish .none (ctrlCan now s)

/-- TXCHK (R164, R166). -/
def execTxchk (now : Time) (s : State) : Host.Outcome State Fault Refusal :=
  finish .none (txchk now s)

end Sys2Proof.Machine
end

