-- ==== Sys2Proof/Machine/Wire.lean ====
section
/-! DEFINITION. The meanings of the wire units (R80, R88, R89): CORE receives the unit's bytes in order, one RXBYTE each
(R118), whatever the state of the assembler (R142; log 4). -/

namespace Sys2Proof.Machine

/-- DATA (R80, R90): `SOF` and the bytes after it. -/
def execData (unit : DataUnit) (now : Time) (s : State) : Host.Outcome State Fault Refusal :=
  finishByte (rxBytes now (s.cfg.sof :: encodeTail unit) (s, false))

/-- ACK (R88, R132, R162). -/
def execAck (now : Time) (s : State) : Host.Outcome State Fault Refusal :=
  finishByte (rxByte s.cfg.ack now s)

/-- NAK (R88, R132, R163). -/
def execNak (now : Time) (s : State) : Host.Outcome State Fault Refusal :=
  finishByte (rxByte s.cfg.nak now s)

/-- CAN (R88, R132, R165). -/
def execCan (now : Time) (s : State) : Host.Outcome State Fault Refusal :=
  finishByte (rxByte s.cfg.can now s)

/-- NOISE (R89, R132). -/
def execNoise (b : Byte) (now : Time) (s : State) : Host.Outcome State Fault Refusal :=
  finishByte (rxByte b now s)

end Sys2Proof.Machine
end

