-- ==== Sys2Proof/Machine/Dispatch.lean ====
section
/-! DEFINITION. One arm for each operation and wire unit of the opcode table. -/

namespace Sys2Proof.Machine

/-- The meaning of one operation. -/
def exec (i : Instr) (s : State) : Host.Outcome State Fault Refusal :=
  match i with
  -- wire units
  | .data unit now => Sys2Proof.Machine.execData unit now s
  | .ack now => Sys2Proof.Machine.execAck now s
  | .nak now => Sys2Proof.Machine.execNak now s
  | .can now => Sys2Proof.Machine.execCan now s
  | .noise b now => Sys2Proof.Machine.execNoise b now s
  -- host command port
  | .poll now => Sys2Proof.Machine.execPoll now s
  | .transmit command kind payload now => Sys2Proof.Machine.execTransmit command kind payload now s
  | .getAckTimeout => Sys2Proof.Machine.execGetAckTimeout s
  | .setAckTimeout value => Sys2Proof.Machine.execSetAckTimeout value s
  | .getByteTimeout => Sys2Proof.Machine.execGetByteTimeout s
  | .setByteTimeout value => Sys2Proof.Machine.execSetByteTimeout value s
  | .reservedOp6 => Sys2Proof.Machine.execReservedOp6 s
  | .reservedOp7 => Sys2Proof.Machine.execReservedOp7 s
  -- internal operations
  | .checksum bs => Sys2Proof.Machine.execChecksum bs s
  | .encode command kind payload => Sys2Proof.Machine.execEncode command kind payload s
  | .decode bs => Sys2Proof.Machine.execDecode bs s
  | .classify b => Sys2Proof.Machine.execClassify b s
  | .rxbyte b now => Sys2Proof.Machine.execRxbyte b now s
  | .rxidle now => Sys2Proof.Machine.execRxidle now s
  | .ctrlAck now => Sys2Proof.Machine.execCtrlAck now s
  | .ctrlNak now => Sys2Proof.Machine.execCtrlNak now s
  | .ctrlCan now => Sys2Proof.Machine.execCtrlCan now s
  | .txchk now => Sys2Proof.Machine.execTxchk now s
  | .screen f now => Sys2Proof.Machine.execScreen f now s
  | .ddchk now => Sys2Proof.Machine.execDdchk now s
  -- the reset input
  | .reset => Sys2Proof.Machine.execReset s

end Sys2Proof.Machine
end

