-- ==== Sys2Proof/Machine/Requests.lean ====
section
/-! DEFINITION. What the environment does next (R8, R15): which operations it can issue, taking the next request, bytes arriving in the RX byte queue, and the
code that stays after the operation decoded from it. CORE has no fetch (R21); these stand in its place (log 2). -/

namespace Sys2Proof.Machine

/-- The operations the environment can have as a step. TRANSMIT, POLL, the accessors, the reserved codes and RESET are
reachable from outside (R9, R95); RXBYTE, RXIDLE, TXCHK and DDCHK, and with RXBYTE the wire units, are exposed as R9 allows
(log 6). CTRL_ACK, CTRL_NAK, CTRL_CAN and SCREEN are sub-steps of RXBYTE, "not separately issuable" (R98), and the pure
operations of the codec are not reachable (R9). -/
def issuable : Instr → Bool
  | .data _ _ | .ack _ | .nak _ | .can _ | .noise _ _ => true
  | .poll _ | .transmit _ _ _ _ | .getAckTimeout | .setAckTimeout _ | .getByteTimeout | .setByteTimeout _
  | .reservedOp6 | .reservedOp7 | .reset => true
  | .rxbyte _ _ | .rxidle _ | .txchk _ | .ddchk _ => true
  | .ctrlAck _ | .ctrlNak _ | .ctrlCan _ | .screen _ _ => false
  | .checksum _ | .encode _ _ _ | .decode _ | .classify _ => false

/-- The next request, and the state without it; none when the environment asks for nothing. -/
def State.nextRequest (s : State) : Option (Request × State) :=
  match s.requests with
  | [] => none
  | r :: rest => some (r, { s with requests := rest })

/-- Bytes arrive at the tail of the RX byte queue (R46, R71). -/
def State.arrive (bs : List Byte) (s : State) : State := { s with rxq := s.rxq ++ bs }

/-- What is left of a code stays the next request. -/
def State.putBack (more : Option Code) (s : State) : State :=
  match more with
  | none => s
  | some c => { s with requests := .issue c :: s.requests }

/-- The code of an opcode-table word put where the next step takes its request. -/
def State.withCode (s : State) (c : Code) : State := { s with requests := .issue c :: s.requests }

end Sys2Proof.Machine
end

