-- ==== Sys2Proof/Machine/Step.lean ====
section
/-! DEFINITION. One step: the next request of the environment is carried out. -/

namespace Sys2Proof.Machine

/-- One step. A configuration that breaks R7 is refused; with nothing requested CORE does nothing (R8, R241); bytes arrive
between operations (R71); an issued code is decoded and its operation runs, if it is one the environment can issue (R9, R98). -/
def step (s : State) : Host.Outcome State Fault Refusal :=
  if s.cfg.legal then
    match s.nextRequest with
    | none => .next s
    | some (.arrive bs, t) => .next (t.arrive bs)
    | some (.issue c, t) =>
      match decode s.cfg c with
      | .ok (i, more) => if issuable i then exec i (t.putBack more) else .refused (.notIssuable i)
      | .error e => .refused (.undecodable e)
  else .refused .illegalCfg

/-- The state with an opcode-table word as the next request (log 2, log 11). -/
def State.withFetchWord (s : State) (nbits w : Nat) : State := s.withCode (tableCode nbits w)

end Sys2Proof.Machine
end

