-- ==== Sys2Proof/Safety.lean ====
section
/-! DEFINITION. The invariants the spec states of the state (R31, R37, R40, R42), and the terms claims use: runs of operations,
POLL as the operations it expands into (R98), and what the events of an operation say. -/

namespace Sys2Proof.Machine

/-- A frame is being assembled past its length byte: the four states of the third item of R31. -/
def RxState.pastLength : RxState → Bool
  | .waitSof | .waitLength => false
  | .waitKind | .waitCommand | .waitPayload | .waitChecksum => true

/-- The invariants of the Receive Assembly State (R28, R31), with the canonical form of its buffer and `0x00` above
`rx_count`. -/
structure RxAssembly.Inv (r : RxAssembly) : Prop where
  bufWf : r.buf.wf = true
  bufBelow : r.buf.below r.count.toNat = true
  sof : r.state = .waitSof → r = RxAssembly.idle
  length : r.state = .waitLength → r.count = 0#8 ∧ r.remaining = 0#8
  kind : r.state = .waitKind → r.count = 1#8
  command : r.state = .waitCommand → r.count = 2#8
  lengthLegal : r.state.pastLength = true → 3 ≤ (r.buf.read 0).toNat ∧ (r.buf.read 0).toNat ≤ 180
  noPayloadYet : r.state.pastLength = true → r.count.toNat ≤ 3 → r.remaining.toNat = (r.buf.read 0).toNat - 3
  countUp : r.state.pastLength = true → 3 ≤ r.count.toNat → r.count.toNat + r.remaining.toNat = (r.buf.read 0).toNat
  payload : r.state = .waitPayload → 3 ≤ r.count.toNat ∧ 1 ≤ r.remaining.toNat
  checksum : r.state = .waitChecksum → 3 ≤ r.count.toNat ∧ r.remaining = 0#8
  countMax : r.count.toNat ≤ 180

/-- The result of `DECODE` is a `Frame`. -/
def isFrame : DecodeResult → Bool
  | .frame _ => true
  | .checksumError | .framingError => false

/-- The invariants of the Outstanding Transmission (R37), with the canonical form of its buffer and `0x00` above `tx_len`
(R160). -/
structure Outstanding.Inv (cfg : Cfg) (o : Outstanding) : Prop where
  bufWf : o.buf.wf = true
  bufBelow : o.buf.below o.len.toNat = true
  none : o.valid = false → o = Outstanding.cleared
  lenMin : o.valid = true → 5 ≤ o.len.toNat
  lenMax : o.len.toNat ≤ 182
  retryMax : o.retry.toNat ≤ cfg.maxRetries.toNat
  encoded : o.valid = true → isFrame (decodeFrame cfg (o.buf.readBytes 0 o.len.toNat)) = true

/-- The invariants of the Dedup Record (R40, R42), with the canonical form of its payload. -/
structure DedupRecord.Inv (d : DedupRecord) : Prop where
  payloadWf : d.payload.wf = true
  payloadBelow : d.payload.below d.plen.toNat = true
  absent : d.valid = false → d = DedupRecord.absent
  plenMax : d.plen.toNat ≤ 177

/-- The invariant of the machine: a legal configuration (R7) and the invariants of the three sub-blocks. -/
structure State.Inv (s : State) : Prop where
  cfgLegal : s.cfg.legal = true
  rx : s.rx.Inv
  tx : s.tx.Inv s.cfg
  dd : s.dd.Inv

/-- The state an outcome goes on with. -/
def stateAfter : Host.Outcome State Fault Refusal → Option State
  | .next s => some s
  | .fault _ => none
  | .refused _ => none

/-- Operations one after another, as an operation trace (R97); it stops at the first one that does not complete. -/
def runOps : List Instr → State → Host.Outcome State Fault Refusal
  | [], s => .next s
  | i :: is, s =>
    match exec i s with
    | .next t => runOps is t
    | .fault f => .fault f
    | .refused r => .refused r

/-- The bytes of the queue through the operation RXBYTE, up to a terminal one (R200, R201). -/
def feedOps (now : Time) : List Byte → State → Host.Outcome State Fault Refusal
  | [], s => .next s
  | b :: q, s =>
    match exec (.rxbyte b now) { s with rxq := q } with
    | .next t => if t.result = .terminal true then .next t else feedOps now q t
    | .fault f => .fault f
    | .refused r => .refused r

/-- An operation after an outcome. -/
def thenOp (o : Host.Outcome State Fault Refusal) (i : Instr) : Host.Outcome State Fault Refusal :=
  match o with
  | .next t => exec i t
  | .fault f => .fault f
  | .refused r => .refused r

/-- DDCHK, RXBYTE for each byte up to a terminal one, RXIDLE, TXCHK (R98). -/
def pollOps (now : Time) (s : State) : Host.Outcome State Fault Refusal :=
  match exec (.ddchk now) s with
  | .next t => thenOp (thenOp (feedOps now t.rxq t) (.rxidle now)) (.txchk now)
  | .fault f => .fault f
  | .refused r => .refused r

/-- An outcome with another result and, if given, another record or flag: used to say that two operations do the same. -/
def withResult (r : Result) : Host.Outcome State Fault Refusal → Host.Outcome State Fault Refusal
  | .next t => .next { t with result := r }
  | .fault f => .fault f
  | .refused x => .refused x

/-- `TxDone` of any status. -/
def Event.isTxDone : Event → Bool
  | .txDone _ => true
  | _ => false

/-- `Deliver` of any frame. -/
def Event.isDeliver : Event → Bool
  | .deliver _ => true
  | _ => false

/-- The events that report the end of a frame: the terminal cases of R141. -/
def Event.endsFrame : Event → Bool
  | .evFrameReceived | .evDupSuppressed | .evChecksumFailed | .evBadLength _ | .evBadKind _ => true
  | _ => false

end Sys2Proof.Machine
end

