-- ==== Sys2Proof/Certificates/Slice0/Obligations.lean ====
section
/-! DEFINITION. The statements for the provers, from the numbered rules of the spec. -/

open Sys2Proof Sys2Proof.Machine

/-! ### Encodings -/

/-- Opcode-table words read as their rows (R80, R88, R89, R95, R99): the three control symbols, a noise byte, the source's
frame `01 05 00 04 01 02 FD`, and host-port codes 0, 5 and 6. The zero operands are the model's (log 11). -/
def Obligations.TableWordsDecodeToTheirRows : Prop :=
  decodeTableWord 8 0x06 = some (.ack 0#32) ∧ decodeTableWord 8 0x15 = some (.nak 0#32) ∧
  decodeTableWord 8 0x18 = some (.can 0#32) ∧ decodeTableWord 8 0x7E = some (.noise 0x7E#8 0#32) ∧
  decodeTableWord 56 0xFD020104000501 = some (.data (.frame 0x00#8 0x04#8 [0x01#8, 0x02#8] 0xFD#8) 0#32) ∧
  decodeTableWord 3 0 = some (.poll 0#32) ∧ decodeTableWord 3 5 = some (.setByteTimeout 0#16) ∧
  decodeTableWord 3 6 = some .reservedOp6

/-- Decoding an encoded instruction gives it back, every operand at every value the encoding admits, for every legal
configuration and every row of the table. -/
def Obligations.DecodeOfEncodeIsTheInstruction : Prop :=
  ∀ (cfg : Cfg) (i : Instr), cfg.legal = true → i.wellFormed cfg = true → decode cfg (encode cfg i) = .ok (i, none)

/-- A unit that is as long as it says reads the same whatever follows it on the wire, and leaves exactly what follows it
(R81, R82, R87, R89). -/
def Obligations.BytesAfterAUnitDoNotChangeIt : Prop :=
  ∀ (cfg : Cfg) (i : Instr) (bs rest : List Byte) (now : Time), cfg.legal = true → i.wellFormed cfg = true →
    (∀ tail at', i ≠ .data (.stalled tail) at') → encode cfg i = .wire bs now →
    decodeWire cfg (bs ++ rest) now = .ok (i, rest)

/-- What is read from the wire is exactly the bytes that were there: the unit is well formed and its encoding and the bytes
left make up the input (R89: every nonempty byte list starts with a unit). -/
def Obligations.WireUnitsAreTheBytesRead : Prop :=
  ∀ (cfg : Cfg) (bytes : List Byte) (now : Time), bytes ≠ [] → cfg.legal = true →
    ∃ i rest bs, decodeWire cfg bytes now = .ok (i, rest) ∧ i.wellFormed cfg = true ∧ encode cfg i = .wire bs now ∧
      bytes = bs ++ rest

/-- The eight codes of the host command port (R94, R95, R96). That fewer payload bytes than `plen` are no operation is the
model's choice (log 7). -/
def Obligations.HostCodesSelectTheirOperations : Prop :=
  ∀ (cfg : Cfg) (p : HostPort),
    (p.op = 0#3 → decode cfg (.host p) = .ok (.poll p.now, none)) ∧
    (p.op = 1#3 → p.plen.toNat ≤ p.payload.length → decode cfg (.host p) =
      .ok (.transmit p.command (if p.kind = 0#1 then .request else .response) (p.payload.take p.plen.toNat) p.now, none)) ∧
    (p.op = 1#3 → p.payload.length < p.plen.toNat → decode cfg (.host p) = .error .missingPayload) ∧
    (p.op = 2#3 → decode cfg (.host p) = .ok (.getAckTimeout, none)) ∧
    (p.op = 3#3 → decode cfg (.host p) = .ok (.setAckTimeout p.value, none)) ∧
    (p.op = 4#3 → decode cfg (.host p) = .ok (.getByteTimeout, none)) ∧
    (p.op = 5#3 → decode cfg (.host p) = .ok (.setByteTimeout p.value, none)) ∧
    (p.op = 6#3 → decode cfg (.host p) = .ok (.reservedOp6, none)) ∧
    (p.op = 7#3 → decode cfg (.host p) = .ok (.reservedOp7, none))

/-! ### Frame Codec -/

/-- CHECKSUM (R110): the complement of the exclusive-or of the list, whatever its order, and the laws the rule lists. Nothing
but the result changes. -/
def Obligations.ChecksumIsComplementOfXor : Prop :=
  ∀ (s : State) (bs : List Byte),
    ∃ c, exec (.checksum bs) s = .next { s with result := .byte c } ∧ c = ~~~ (bs.foldl (· ^^^ ·) 0#8) ∧
      (bs = [] → c = 0xFF#8) ∧ (bs.foldl (· ^^^ ·) 0#8 = 0xFF#8 → c = 0x00#8) ∧
      (bs ++ [c]).foldl (· ^^^ ·) 0#8 = 0xFF#8 ∧
      ∀ cs, bs.Perm cs → exec (.checksum cs) s = .next { s with result := .byte c }

/-- ENCODE (R111): the bytes of the frame, or `PayloadTooLarge` exactly from 178 payload bytes on. Nothing but the result
changes. -/
def Obligations.EncodeBuildsTheFrame : Prop :=
  ∀ (s : State) (c : Byte) (k : Kind) (p : List Byte),
    (p.length ≤ 177 → exec (.encode c k p) s = .next { s with result := .encoded (.bytes
      (s.cfg.sof :: BitVec.ofNat 8 (p.length + 3) :: (match k with | .request => s.cfg.kindReq | .response => s.cfg.kindRsp) ::
        c :: p ++ [~~~ ((BitVec.ofNat 8 (p.length + 3) ::
          (match k with | .request => s.cfg.kindReq | .response => s.cfg.kindRsp) :: c :: p).foldl (· ^^^ ·) 0#8)])) }) ∧
    (178 ≤ p.length → exec (.encode c k p) s = .next { s with result := .encoded .payloadTooLarge })

/-- DECODE (R112): the four checks in their order, each with the earlier ones passed; nothing but the result changes. -/
def Obligations.DecodeMakesItsChecksInOrder : Prop :=
  ∀ (s : State) (bs : List Byte),
    (bs.length < 5 ∨ 182 < bs.length ∨ bs.head? ≠ some s.cfg.sof →
      exec (.decode bs) s = .next { s with result := .decoded .framingError }) ∧
    ∀ l k c p x, bs = s.cfg.sof :: l :: k :: c :: p ++ [x] → p.length ≤ 177 →
      (x ≠ ~~~ ((l :: k :: c :: p).foldl (· ^^^ ·) 0#8) →
        exec (.decode bs) s = .next { s with result := .decoded .checksumError }) ∧
      (x = ~~~ ((l :: k :: c :: p).foldl (· ^^^ ·) 0#8) → l.toNat ≠ p.length + 3 →
        exec (.decode bs) s = .next { s with result := .decoded .framingError }) ∧
      (x = ~~~ ((l :: k :: c :: p).foldl (· ^^^ ·) 0#8) → l.toNat = p.length + 3 → k ≠ s.cfg.kindReq → k ≠ s.cfg.kindRsp →
        exec (.decode bs) s = .next { s with result := .decoded .framingError }) ∧
      (x = ~~~ ((l :: k :: c :: p).foldl (· ^^^ ·) 0#8) → l.toNat = p.length + 3 → k = s.cfg.kindReq →
        exec (.decode bs) s = .next { s with result := .decoded (.frame ⟨.request, c, p⟩) }) ∧
      (s.cfg.legal = true → x = ~~~ ((l :: k :: c :: p).foldl (· ^^^ ·) 0#8) → l.toNat = p.length + 3 →
        k = s.cfg.kindRsp → exec (.decode bs) s = .next { s with result := .decoded (.frame ⟨.response, c, p⟩) })

/-- The round trip and its converse (R114). -/
def Obligations.FrameRoundTripBothWays : Prop :=
  ∀ (s : State), s.cfg.legal = true →
    (∀ c k p, p.length ≤ 177 → ∃ bs, exec (.encode c k p) s = .next { s with result := .encoded (.bytes bs) } ∧
      exec (.decode bs) s = .next { s with result := .decoded (.frame ⟨k, c, p⟩) }) ∧
    (∀ bs f, exec (.decode bs) s = .next { s with result := .decoded (.frame f) } →
      exec (.encode f.command f.kind f.payload) s = .next { s with result := .encoded (.bytes bs) })

/-- Checksum sensitivity (R115): any single flipped bit from the length byte to the checksum byte is a `ChecksumError`, and
one in the `SOF` byte a `FramingError`. -/
def Obligations.SingleFlippedBitIsDetected : Prop :=
  ∀ (s : State) (c : Byte) (k : Kind) (p bs : List Byte) (j m : Nat), p.length ≤ 177 →
    exec (.encode c k p) s = .next { s with result := .encoded (.bytes bs) } → m < 8 →
    (1 ≤ j → j < bs.length → exec (.decode (bs.set j (bs.getD j 0#8 ^^^ BitVec.twoPow 8 m))) s =
      .next { s with result := .decoded .checksumError }) ∧
    exec (.decode (bs.set 0 (bs.getD 0 0#8 ^^^ BitVec.twoPow 8 m))) s = .next { s with result := .decoded .framingError }

/-- CLASSIFY (R113, R89): total on the 256 byte values, each class exactly for its bytes, exactly 252 of them noise. -/
def Obligations.ClassifySplitsTheLeadBytes : Prop :=
  ∀ (s : State), s.cfg.legal = true →
    (∀ b, ∃ c, exec (.classify b) s = .next { s with result := .lead c } ∧
      (c = .leadSof ↔ b = s.cfg.sof) ∧ (c = .symAck ↔ b = s.cfg.ack) ∧ (c = .symNak ↔ b = s.cfg.nak) ∧
      (c = .symCan ↔ b = s.cfg.can) ∧
      (c = .noise ↔ b ≠ s.cfg.sof ∧ b ≠ s.cfg.ack ∧ b ≠ s.cfg.nak ∧ b ≠ s.cfg.can)) ∧
    (List.range 256).countP (fun n => exec (.classify (BitVec.ofNat 8 n)) s |> stateAfter |>.map (·.result) |>.all
      (· == .lead .noise)) = 252

/-! ### Receive Assembler -/

/-- The byte-deadline pre-check of RXBYTE (R130): in a non-idle state at or after the deadline, the partial frame is dropped
with `EvRxTimeout` and the same byte is then a lead byte. -/
def Obligations.LateByteStartsAfresh : Prop :=
  ∀ (s : State) (b : Byte) (now : Time), s.rx.state ≠ .waitSof →
    s.byteTimeoutMs.toNat ≤ (now - s.rx.lastTime).toNat →
    exec (.rxbyte b now) s =
      exec (.rxbyte b now) { s with rx := ⟨.waitSof, [], 0#8, 0#8, 0#32⟩, events := s.events ++ [.evRxTimeout] }

/-- RXBYTE in `WaitSof` (R132): `SOF` arms the deadline and starts a frame, a control symbol is handed to the Transmit/ACK
Controller, any other byte is noise; never terminal, however long the line was silent. -/
def Obligations.LeadByteSelectsTheUnit : Prop :=
  ∀ (s : State) (now : Time), s.cfg.legal = true → s.rx.state = .waitSof →
    exec (.rxbyte s.cfg.sof now) s =
      .next { s with rx := { s.rx with state := .waitLength, lastTime := now }, result := .terminal false } ∧
    exec (.rxbyte s.cfg.ack now) s = withResult (.terminal false) (exec (.ctrlAck now) s) ∧
    exec (.rxbyte s.cfg.nak now) s = withResult (.terminal false) (exec (.ctrlNak now) s) ∧
    exec (.rxbyte s.cfg.can now) s = withResult (.terminal false) (exec (.ctrlCan now) s) ∧
    ∀ b, b ≠ s.cfg.sof → b ≠ s.cfg.ack → b ≠ s.cfg.nak → b ≠ s.cfg.can →
      exec (.rxbyte b now) s = .next { s with events := s.events ++ [.evNoise b], result := .terminal false }

/-- RXBYTE in `WaitLength` before the deadline (R133). -/
def Obligations.LengthByteIsStoredOrRefused : Prop :=
  ∀ (s : State) (b : Byte) (now : Time), s.rx.state = .waitLength →
    (now - s.rx.lastTime).toNat < s.byteTimeoutMs.toNat →
    (b.toNat < 3 ∨ 180 < b.toNat → exec (.rxbyte b now) s =
      .next { s with
        rx := ⟨.waitSof, [], 0#8, 0#8, 0#32⟩, events := s.events ++ [.evBadLength b], result := .terminal true }) ∧
    (3 ≤ b.toNat → b.toNat ≤ 180 → ∃ m, exec (.rxbyte b now) s =
      .next { s with rx := ⟨.waitKind, m, 1#8, BitVec.ofNat 8 (b.toNat - 3), now⟩, result := .terminal false } ∧
      ∀ a, m.read a = if a = 0 then b else s.rx.buf.read a)

/-- RXBYTE in `WaitKind` and in `WaitCommand` before the deadline (R134, R135): any byte is stored; an empty payload goes
straight to the checksum. -/
def Obligations.KindAndCommandBytesAreStored : Prop :=
  ∀ (s : State) (b : Byte) (now : Time), (now - s.rx.lastTime).toNat < s.byteTimeoutMs.toNat →
    (s.rx.state = .waitKind → ∃ m, exec (.rxbyte b now) s =
      .next { s with rx := ⟨.waitCommand, m, 2#8, s.rx.remaining, now⟩, result := .terminal false } ∧
      ∀ a, m.read a = if a = 1 then b else s.rx.buf.read a) ∧
    (s.rx.state = .waitCommand → ∃ m, exec (.rxbyte b now) s =
      .next { s with
        rx := ⟨if s.rx.remaining = 0#8 then .waitChecksum else .waitPayload, m, 3#8, s.rx.remaining, now⟩
        result := .terminal false } ∧
      ∀ a, m.read a = if a = 2 then b else s.rx.buf.read a)

/-- RXBYTE in `WaitPayload` before the deadline (R136), at an index of the 180-byte buffer. -/
def Obligations.PayloadByteIsStoredAtTheCount : Prop :=
  ∀ (s : State) (b : Byte) (now : Time), s.rx.state = .waitPayload → s.rx.count.toNat < 180 →
    (now - s.rx.lastTime).toNat < s.byteTimeoutMs.toNat →
    ∃ m, exec (.rxbyte b now) s = .next { s with
        rx := ⟨if s.rx.remaining = 1#8 then .waitChecksum else .waitPayload, m, s.rx.count + 1#8, s.rx.remaining - 1#8, now⟩
        result := .terminal false } ∧
      ∀ a, m.read a = if a = s.rx.count.toNat then b else s.rx.buf.read a

/-- RXBYTE in `WaitChecksum` before the deadline (R137 to R140): a wrong checksum is answered with NAK, whatever the kind; a
right one with an unknown kind is dropped unanswered; a right one with a known kind goes to SCREEN. Terminal in every case. -/
def Obligations.ChecksumByteEndsTheFrame : Prop :=
  ∀ (s : State) (b : Byte) (now : Time), s.cfg.legal = true → s.rx.state = .waitChecksum → s.rx.count.toNat ≤ 180 →
    (now - s.rx.lastTime).toNat < s.byteTimeoutMs.toNat →
    let stored := (List.range s.rx.count.toNat).map s.rx.buf.read
    let c := ~~~ (stored.foldl (· ^^^ ·) 0#8)
    let done (r : RxAssembly) : State := { s with rx := r }
    (b ≠ c → exec (.rxbyte b now) s = .next { done ⟨.waitSof, [], 0#8, 0#8, 0#32⟩ with
      events := s.events ++ [.evChecksumFailed, .txBytes [s.cfg.nak]], result := .terminal true }) ∧
    (b = c → s.rx.buf.read 1 ≠ s.cfg.kindReq → s.rx.buf.read 1 ≠ s.cfg.kindRsp → exec (.rxbyte b now) s =
      .next { done ⟨.waitSof, [], 0#8, 0#8, 0#32⟩ with
        events := s.events ++ [.evBadKind (s.rx.buf.read 1)], result := .terminal true }) ∧
    (b = c → s.rx.buf.read 1 = s.cfg.kindReq → exec (.rxbyte b now) s = withResult (.terminal true)
      (exec (.screen ⟨.request, s.rx.buf.read 2, stored.drop 3⟩ now) (done ⟨.waitSof, [], 0#8, 0#8, 0#32⟩))) ∧
    (b = c → s.rx.buf.read 1 = s.cfg.kindRsp → exec (.rxbyte b now) s = withResult (.terminal true)
      (exec (.screen ⟨.response, s.rx.buf.read 2, stored.drop 3⟩ now) (done ⟨.waitSof, [], 0#8, 0#8, 0#32⟩)))

/-- RXIDLE (R143): in a non-idle state at or after the deadline the partial frame is dropped and nothing is sent; otherwise
nothing happens. -/
def Obligations.IdleCheckDropsAStalledFrame : Prop :=
  ∀ (s : State) (now : Time),
    (s.rx.state ≠ .waitSof → s.byteTimeoutMs.toNat ≤ (now - s.rx.lastTime).toNat → exec (.rxidle now) s =
      .next { s with rx := ⟨.waitSof, [], 0#8, 0#8, 0#32⟩, events := s.events ++ [.evRxTimeout], result := .none }) ∧
    (s.rx.state = .waitSof ∨ (now - s.rx.lastTime).toNat < s.byteTimeoutMs.toNat →
      exec (.rxidle now) s = .next { s with result := .none })

/-- The transition table of `rx_state` and the terminal flag (R141, R144), for an RXBYTE whose pre-check does not fire. -/
def Obligations.TransitionTableOfTheAssembler : Prop :=
  ∀ (s : State) (b : Byte) (now : Time),
    s.rx.state = .waitSof ∨ (now - s.rx.lastTime).toNat < s.byteTimeoutMs.toNat →
    ∃ t, exec (.rxbyte b now) s = .next t ∧
      match s.rx.state with
      | .waitSof => t.rx.state = (if b = s.cfg.sof then .waitLength else .waitSof) ∧ t.result = .terminal false
      | .waitLength =>
        if 3 ≤ b.toNat ∧ b.toNat ≤ 180 then t.rx.state = .waitKind ∧ t.result = .terminal false
        else t.rx.state = .waitSof ∧ t.result = .terminal true
      | .waitKind => t.rx.state = .waitCommand ∧ t.result = .terminal false
      | .waitCommand =>
        t.rx.state = (if s.rx.remaining = 0#8 then .waitChecksum else .waitPayload) ∧ t.result = .terminal false
      | .waitPayload =>
        t.rx.state = (if s.rx.remaining = 1#8 then .waitChecksum else .waitPayload) ∧ t.result = .terminal false
      | .waitChecksum => t.rx.state = .waitSof ∧ t.result = .terminal true

/-- Marker bytes inside a frame are data (R142): before the deadline no byte consumed in a non-idle state reaches the
Transmit/ACK Controller or starts a frame. -/
def Obligations.MarkerBytesInsideAFrameAreData : Prop :=
  ∀ (s : State) (b : Byte) (now : Time), s.rx.state ≠ .waitSof →
    (now - s.rx.lastTime).toNat < s.byteTimeoutMs.toNat →
    ∃ t es, exec (.rxbyte b now) s = .next t ∧ t.events = s.events ++ es ∧ t.tx = s.tx ∧ t.rx.state ≠ .waitLength ∧
      ∀ e ∈ es, e ≠ .txAcked ∧ e.isTxDone = false ∧ (∀ y, e ≠ .evStray y) ∧ (∀ c, e ≠ .evRetransmit c) ∧
        (∀ n, e ≠ .evNoise n)

/-- A wire unit is the RXBYTEs of its bytes at one `now` (log 4 of the model; R118 is stated in these terms). -/
def Obligations.WireUnitsAreTheirBytes : Prop :=
  ∀ (s : State) (now : Time),
    (∀ u, exec (.data u now) s = runOps ((s.cfg.sof :: encodeTail u).map fun b => .rxbyte b now) s) ∧
    exec (.ack now) s = exec (.rxbyte s.cfg.ack now) s ∧ exec (.nak now) s = exec (.rxbyte s.cfg.nak now) s ∧
    exec (.can now) s = exec (.rxbyte s.cfg.can now) s ∧ ∀ b, exec (.noise b now) s = exec (.rxbyte b now) s

/-- The one-byte units received in `WaitSof` (R88, R132, R161 to R165): what each does, with and without an Outstanding
Transmission. -/
def Obligations.OneByteUnitsInTheIdleState : Prop :=
  ∀ (s : State) (now : Time), s.cfg.legal = true → s.rx.state = .waitSof →
    (s.tx.valid = true → exec (.ack now) s = .next { s with
      tx := ⟨false, [], 0#8, 0#8, 0#32⟩, events := s.events ++ [.txAcked, .txDone .success], result := .terminal false }) ∧
    (s.tx.valid = false → exec (.ack now) s =
      .next { s with events := s.events ++ [.evStray .ack], result := .terminal false }) ∧
    (s.tx.valid = true → s.tx.retry.toNat < s.cfg.maxRetries.toNat → s.tx.len.toNat ≤ 182 → exec (.nak now) s =
      .next { s with
        tx := { s.tx with retry := s.tx.retry + 1#8, sendTime := now }
        events := s.events ++ [.txBytes ((List.range s.tx.len.toNat).map s.tx.buf.read), .evRetransmit .nak]
        result := .terminal false }) ∧
    (s.tx.valid = true → s.cfg.maxRetries.toNat ≤ s.tx.retry.toNat → exec (.nak now) s = .next { s with
      tx := ⟨false, [], 0#8, 0#8, 0#32⟩, events := s.events ++ [.txDone .failNak], result := .terminal false }) ∧
    (s.tx.valid = false → exec (.nak now) s =
      .next { s with events := s.events ++ [.evStray .nak], result := .terminal false }) ∧
    (s.tx.valid = true → exec (.can now) s = .next { s with
      tx := ⟨false, [], 0#8, 0#8, 0#32⟩, events := s.events ++ [.txDone .failCancelled], result := .terminal false }) ∧
    (s.tx.valid = false → exec (.can now) s =
      .next { s with events := s.events ++ [.evStray .can], result := .terminal false }) ∧
    (∀ b, (Instr.noise b now).wellFormed s.cfg = true → exec (.noise b now) s =
      .next { s with events := s.events ++ [.evNoise b], result := .terminal false })

/-- The assembler and DECODE agree (R118): the bytes of a unit as long as its length field says, fed from `WaitSof` one RXBYTE
each with no byte deadline expiring between them, end in SCREEN of the Frame that DECODE gives, in `EvChecksumFailed` and a NAK
when DECODE gives `ChecksumError`, and in `EvBadKind` when it gives `FramingError`. -/
def Obligations.ReceivedFrameAgreesWithDecode : Prop :=
  ∀ (s : State) (k c : Byte) (p : List Byte) (x : Byte) (ts : List Time) (last : Time), s.Inv → s.rx.state = .waitSof →
    p.length ≤ 177 → ts.length = p.length + 4 →
    List.IsChain (fun a b => (b - a).toNat < s.byteTimeoutMs.toNat) (ts ++ [last]) →
    let bs := s.cfg.sof :: BitVec.ofNat 8 (p.length + 3) :: k :: c :: p ++ [x]
    let run := runOps (List.zipWith (fun b t => .rxbyte b t) bs (ts ++ [last])) s
    match decodeFrame s.cfg bs with
    | .frame f => run = withResult (.terminal true) (exec (.screen f last) s)
    | .checksumError => run = .next { s with
        events := s.events ++ [.evChecksumFailed, .txBytes [s.cfg.nak]], result := .terminal true }
    | .framingError => run = .next { s with events := s.events ++ [.evBadKind k], result := .terminal true }

/-- A whole valid frame received from `WaitSof` is delivered and acknowledged when no Dedup Record is present, and nothing of
the transmit side changes (R118, R140, R191). -/
def Obligations.GoodFrameIsDeliveredAndAcknowledged : Prop :=
  ∀ (s : State) (kind : Kind) (c : Byte) (p : List Byte) (now : Time), s.Inv → s.rx.state = .waitSof →
    s.byteTimeoutMs ≠ 0#16 → p.length ≤ 177 → s.dd.valid = false →
    let k := match kind with | .request => s.cfg.kindReq | .response => s.cfg.kindRsp
    let x := ~~~ ((BitVec.ofNat 8 (p.length + 3) :: k :: c :: p).foldl (· ^^^ ·) 0#8)
    ∃ m, exec (.data (.frame k c p x) now) s = .next { s with
        dd := ⟨true, c, BitVec.ofNat 8 p.length, m, now⟩
        events := s.events ++ [.deliver ⟨kind, c, p⟩, .txBytes [s.cfg.ack], .evFrameReceived]
        result := .terminal true } ∧
      ∀ a, m.read a = if a < p.length then p.getD a 0#8 else 0#8

/-- DATA units that are not whole frames, received from `WaitSof` (R90, R133): an illegal length ends the unit at once, a
stalled unit waits with its bytes stored. -/
def Obligations.UnfinishedUnitsAreRefusedOrWait : Prop :=
  ∀ (s : State) (now : Time), s.Inv → s.rx.state = .waitSof → s.byteTimeoutMs ≠ 0#16 →
    (∀ l, (DataUnit.badLength l).wellFormed = true → exec (.data (.badLength l) now) s =
      .next { s with events := s.events ++ [.evBadLength l], result := .terminal true }) ∧
    (∀ tail, (DataUnit.stalled tail).wellFormed = true → ∃ r, exec (.data (.stalled tail) now) s =
      .next { s with rx := r, result := .terminal false } ∧ r.state ≠ .waitSof ∧ r.lastTime = now ∧
      r.count.toNat = tail.length ∧ ∀ a, r.buf.read a = tail.getD a 0#8)

/-! ### Transmit/ACK Controller -/

/-- TRANSMIT (R160, R220, R221): `Busy` first, then `PayloadTooLarge`, both with nothing else changed; otherwise the frame is
stored, stamped and sent once. -/
def Obligations.TransmitAcceptsOneFrameAtATime : Prop :=
  ∀ (s : State) (c : Byte) (k : Kind) (p : List Byte) (now : Time),
    (s.tx.valid = true → exec (.transmit c k p now) s = .next { s with result := .transmit .busy }) ∧
    (s.tx.valid = false → 177 < p.length →
      exec (.transmit c k p now) s = .next { s with result := .transmit .payloadTooLarge }) ∧
    (s.tx.valid = false → p.length ≤ 177 → ∃ m bs, encodeFrame s.cfg c k p = .bytes bs ∧ bs.length = p.length + 5 ∧
      exec (.transmit c k p now) s = .next { s with
        tx := ⟨true, m, BitVec.ofNat 8 (p.length + 5), 0#8, now⟩
        events := s.events ++ [.txBytes bs]
        result := .transmit .accepted } ∧
      ∀ a, m.read a = if a < bs.length then bs.getD a 0#8 else s.tx.buf.read a)

/-- CTRL_ACK and CTRL_CAN (R161, R162, R165, R167), at every retry count. -/
def Obligations.AckAndCancelCompleteAtOnce : Prop :=
  ∀ (s : State) (now : Time),
    (s.tx.valid = true → exec (.ctrlAck now) s = .next { s with
      tx := ⟨false, [], 0#8, 0#8, 0#32⟩, events := s.events ++ [.txAcked, .txDone .success], result := .none }) ∧
    (s.tx.valid = true → exec (.ctrlCan now) s = .next { s with
      tx := ⟨false, [], 0#8, 0#8, 0#32⟩, events := s.events ++ [.txDone .failCancelled], result := .none }) ∧
    (s.tx.valid = false → exec (.ctrlAck now) s = .next { s with events := s.events ++ [.evStray .ack], result := .none } ∧
      exec (.ctrlNak now) s = .next { s with events := s.events ++ [.evStray .nak], result := .none } ∧
      exec (.ctrlCan now) s = .next { s with events := s.events ++ [.evStray .can], result := .none })

/-- CTRL_NAK (R163, R164): stray with nothing outstanding; otherwise the stored bytes again while the budget lasts, and the
final failure after that. -/
def Obligations.NakTakesAStepOfTheRetryBudget : Prop :=
  ∀ (s : State) (now : Time),
    (s.tx.valid = false → exec (.ctrlNak now) s = .next { s with events := s.events ++ [.evStray .nak], result := .none }) ∧
    (s.tx.valid = true → s.tx.retry.toNat < s.cfg.maxRetries.toNat → s.tx.len.toNat ≤ 182 →
      exec (.ctrlNak now) s = .next { s with
        tx := { s.tx with retry := s.tx.retry + 1#8, sendTime := now }
        events := s.events ++ [.txBytes ((List.range s.tx.len.toNat).map s.tx.buf.read), .evRetransmit .nak]
        result := .none }) ∧
    (s.tx.valid = true → s.cfg.maxRetries.toNat ≤ s.tx.retry.toNat → exec (.ctrlNak now) s = .next { s with
      tx := ⟨false, [], 0#8, 0#8, 0#32⟩, events := s.events ++ [.txDone .failNak], result := .none })

/-- TXCHK (R164, R166): before the deadline, or with nothing outstanding, nothing; at or after it, one step of the retry
budget. -/
def Obligations.AckDeadlineTakesAStepOfTheRetryBudget : Prop :=
  ∀ (s : State) (now : Time),
    (s.tx.valid = false ∨ (now - s.tx.sendTime).toNat < s.ackTimeoutMs.toNat →
      exec (.txchk now) s = .next { s with result := .none }) ∧
    (s.tx.valid = true → s.ackTimeoutMs.toNat ≤ (now - s.tx.sendTime).toNat →
      (s.tx.retry.toNat < s.cfg.maxRetries.toNat → s.tx.len.toNat ≤ 182 → exec (.txchk now) s = .next { s with
        tx := { s.tx with retry := s.tx.retry + 1#8, sendTime := now }
        events := s.events ++ [.txBytes ((List.range s.tx.len.toNat).map s.tx.buf.read), .evRetransmit .timeout]
        result := .none }) ∧
      (s.cfg.maxRetries.toNat ≤ s.tx.retry.toNat → exec (.txchk now) s = .next { s with
        tx := ⟨false, [], 0#8, 0#8, 0#32⟩, events := s.events ++ [.txDone .failTimeout], result := .none }))

/-- The retry bound (R169): TRANSMIT and then polls at or after each deadline with nothing received make exactly
`MAX_RETRIES + 1` transmissions of the same bytes and one `TxDone`, a failure; the last poll answers `TxTimeout`. -/
def Obligations.SilentPeerGetsEveryRetryAndOneFailure : Prop :=
  ∀ (s : State) (c : Byte) (k : Kind) (p : List Byte) (t₀ : Time) (ts : List Time), s.Inv → s.tx.valid = false →
    s.rx.state = .waitSof → s.rxq = [] → p.length ≤ 177 → ts.length = s.cfg.maxRetries.toNat + 1 →
    List.IsChain (fun a b => s.ackTimeoutMs.toNat ≤ (b - a).toNat) (t₀ :: ts) →
    ∃ t bs, encodeFrame s.cfg c k p = .bytes bs ∧ runOps (.transmit c k p t₀ :: ts.map .poll) s = .next t ∧
      t.tx = ⟨false, [], 0#8, 0#8, 0#32⟩ ∧ t.result = .outcome .txTimeout ∧
      t.events = s.events ++ .txBytes bs ::
        (List.replicate s.cfg.maxRetries.toNat [.txBytes bs, .evRetransmit .timeout]).flatten ++ [.txDone .failTimeout]

/-- Exactly one completion (R170), as a balance: over any operation but RESET, the `TxDone`s emitted and the transmission
still outstanding make up the one outstanding before and the one accepted; `TxAcked` is emitted exactly as often as
`TxDone(Success)`. -/
def Obligations.EveryAcceptedFrameHasOneCompletion : Prop :=
  ∀ (i : Instr) (s t : State), s.Inv → i.wellFormed s.cfg = true → i ≠ .reset → exec i s = .next t →
    ∃ es, t.events = s.events ++ es ∧
      es.countP Event.isTxDone + (if t.tx.valid then 1 else 0) =
        (if s.tx.valid then 1 else 0) + (if t.result = .transmit .accepted then 1 else 0) ∧
      es.count .txAcked = es.count (.txDone .success)

/-! ### Duplicate Suppression -/

/-- SCREEN (R190, R191, R192): a frame equal in command and payload to the recorded one, within the window, is acknowledged
only; any other is delivered, acknowledged and recorded. The kind plays no part. -/
def Obligations.ScreenDeliversOrSuppresses : Prop :=
  ∀ (s : State) (f : Frame) (now : Time), s.dd.plen.toNat ≤ 177 → f.payload.length ≤ 177 →
    let same := s.dd.valid = true ∧ s.dd.cmd = f.command ∧ s.dd.plen.toNat = f.payload.length ∧
      (List.range s.dd.plen.toNat).map s.dd.payload.read = f.payload
    let fresh := (now - s.dd.time).toNat < s.cfg.dedupWindowMs.toNat
    (same → fresh → exec (.screen f now) s =
      .next { s with events := s.events ++ [.txBytes [s.cfg.ack], .evDupSuppressed], result := .none }) ∧
    (¬ (same ∧ fresh) → ∃ m, exec (.screen f now) s = .next { s with
        dd := ⟨true, f.command, BitVec.ofNat 8 f.payload.length, m, now⟩
        events := s.events ++ [.deliver f, .txBytes [s.cfg.ack], .evFrameReceived]
        result := .none } ∧
      ∀ a, m.read a = if a < f.payload.length then f.payload.getD a 0#8 else 0#8)

/-- DDCHK (R193): an expired record is dropped, without an event; otherwise nothing happens. -/
def Obligations.ExpiredRecordIsDropped : Prop :=
  ∀ (s : State) (now : Time),
    (s.dd.valid = true → s.cfg.dedupWindowMs.toNat ≤ (now - s.dd.time).toNat →
      exec (.ddchk now) s = .next { s with dd := ⟨false, 0#8, 0#8, [], 0#32⟩, result := .none }) ∧
    (s.dd.valid = false ∨ (now - s.dd.time).toNat < s.cfg.dedupWindowMs.toNat →
      exec (.ddchk now) s = .next { s with result := .none })

/-- The dedup law (R195): of two frames equal in command and payload, the first finding the record absent or different and the
second within the window of the first's delivery, exactly one is delivered and both are acknowledged; a third is judged from
the first, not from the second. -/
def Obligations.SecondIdenticalFrameIsNotDelivered : Prop :=
  ∀ (s : State) (f g h : Frame) (t₁ t₂ t₃ : Time), s.Inv → f.payload.length ≤ 177 →
    s.dd.valid = false ∨ s.dd.cmd ≠ f.command ∨ (List.range s.dd.plen.toNat).map s.dd.payload.read ≠ f.payload →
    g.command = f.command → g.payload = f.payload → h.command = f.command → h.payload = f.payload →
    (t₂ - t₁).toNat < s.cfg.dedupWindowMs.toNat →
    ∃ t u, runOps [.screen f t₁, .screen g t₂] s = .next t ∧
      t.events = s.events ++ [.deliver f, .txBytes [s.cfg.ack], .evFrameReceived, .txBytes [s.cfg.ack], .evDupSuppressed] ∧
      exec (.screen h t₃) t = .next u ∧
      u.events = t.events ++ (if (t₃ - t₁).toNat < s.cfg.dedupWindowMs.toNat then [.txBytes [s.cfg.ack], .evDupSuppressed]
        else [.deliver h, .txBytes [s.cfg.ack], .evFrameReceived])

/-- Only the last delivery is remembered (R196): frames A, B, A with A and B different are all delivered. -/
def Obligations.OnlyTheLastDeliveryIsRemembered : Prop :=
  ∀ (s : State) (a b : Frame) (t₁ t₂ t₃ : Time), s.Inv → a.payload.length ≤ 177 → b.payload.length ≤ 177 →
    s.dd.valid = false ∨ s.dd.cmd ≠ a.command ∨ (List.range s.dd.plen.toNat).map s.dd.payload.read ≠ a.payload →
    a.command ≠ b.command ∨ a.payload ≠ b.payload →
    ∃ t, runOps [.screen a t₁, .screen b t₂, .screen a t₃] s = .next t ∧
      t.events = s.events ++ [.deliver a, .txBytes [s.cfg.ack], .evFrameReceived, .deliver b, .txBytes [s.cfg.ack],
        .evFrameReceived, .deliver a, .txBytes [s.cfg.ack], .evFrameReceived]

/-! ### Poll Driver, accessors, reset -/

/-- POLL is DDCHK, RXBYTE for each queued byte up to a terminal one, RXIDLE and TXCHK, in that order, at one `now` (R98,
R200), with the most significant outcome of the events they emitted. -/
def Obligations.PollIsItsSteps : Prop :=
  ∀ (s : State) (now : Time), exec (.poll now) s =
    match pollOps now s with
    | .next t => .next { t with result := .outcome (outcomeOf (t.events.drop s.events.length)) }
    | .fault f => .fault f
    | .refused r => .refused r

/-- The outcome of a POLL (R92, R202): the greatest code among the images of the events it emitted, `Idle` if there is
none, with the image of each event as the table has it. -/
def Obligations.PollAnswersTheMostSignificantOutcome : Prop :=
  (∀ (s t : State) (now : Time), exec (.poll now) s = .next t → ∃ es o, t.events = s.events ++ es ∧
    t.result = .outcome o ∧ (∀ e ∈ es, e.outcome.code.toNat ≤ o.code.toNat) ∧ (o = .idle ∨ ∃ e ∈ es, e.outcome = o)) ∧
  Event.evFrameReceived.outcome.code = 1#3 ∧ (Event.txDone .success).outcome.code = 2#3 ∧
  Event.evChecksumFailed.outcome.code = 3#3 ∧ (∀ b, (Event.evBadLength b).outcome.code = 3#3) ∧
  (∀ b, (Event.evBadKind b).outcome.code = 3#3) ∧ Event.evRxTimeout.outcome.code = 4#3 ∧
  (Event.txDone .failTimeout).outcome.code = 5#3 ∧ (Event.txDone .failNak).outcome.code = 5#3 ∧
  (Event.txDone .failCancelled).outcome.code = 5#3 ∧ (∀ bs, (Event.txBytes bs).outcome.code = 0#3) ∧
  (∀ f, (Event.deliver f).outcome.code = 0#3) ∧ Event.txAcked.outcome.code = 0#3 ∧
  Event.evDupSuppressed.outcome.code = 0#3 ∧ (∀ b, (Event.evNoise b).outcome.code = 0#3) ∧
  (∀ y, (Event.evStray y).outcome.code = 0#3) ∧ ∀ c, (Event.evRetransmit c).outcome.code = 0#3

/-- When the feed loop stops (R201): at most one frame ends in a POLL, at most one is delivered, the bytes left are the tail
of the queue, and bytes are left only if a frame ended. -/
def Obligations.AtMostOneFrameEndsInAPoll : Prop :=
  ∀ (s t : State) (now : Time), exec (.poll now) s = .next t → ∃ es, t.events = s.events ++ es ∧
    es.countP Event.endsFrame ≤ 1 ∧ es.countP Event.isDeliver ≤ 1 ∧ t.rxq <:+ s.rxq ∧
    (t.rxq ≠ [] → es.countP Event.endsFrame = 1)

/-- POLL with nothing to do (R200, R241): only the result `Idle`. -/
def Obligations.PollOfAnIdleCoreDoesNothing : Prop :=
  ∀ (s : State) (now : Time), s.rxq = [] → s.rx.state = .waitSof → s.tx.valid = false →
    s.dd.valid = false ∨ (now - s.dd.time).toNat < s.cfg.dedupWindowMs.toNat →
    exec (.poll now) s = .next { s with result := .outcome .idle }

/-- The accessors (R204 to R207): a SET writes its register and nothing else, whatever the value, and the next GET reads it
back, changing nothing; the next deadline check, also of a transmission or a frame already under way, uses the new value. -/
def Obligations.AccessorsReadAndWriteTheirRegister : Prop :=
  ∀ (s : State) (v : Millis),
    exec .getAckTimeout s = .next { s with result := .value s.ackTimeoutMs } ∧
    exec .getByteTimeout s = .next { s with result := .value s.byteTimeoutMs } ∧
    exec (.setAckTimeout v) s = .next { s with ackTimeoutMs := v, result := .none } ∧
    exec (.setByteTimeout v) s = .next { s with byteTimeoutMs := v, result := .none } ∧
    runOps [.setAckTimeout v, .getAckTimeout] s = .next { s with ackTimeoutMs := v, result := .value v } ∧
    runOps [.setByteTimeout v, .getByteTimeout] s = .next { s with byteTimeoutMs := v, result := .value v } ∧
    ∀ now, runOps [.setAckTimeout v, .txchk now] s = exec (.txchk now) { s with ackTimeoutMs := v, result := .none } ∧
      runOps [.setByteTimeout v, .rxidle now] s = exec (.rxidle now) { s with byteTimeoutMs := v, result := .none } ∧
      ∀ b, runOps [.setByteTimeout v, .rxbyte b now] s = exec (.rxbyte b now) { s with byteTimeoutMs := v, result := .none }

/-- The reserved codes do nothing and return nothing (R95, R208). That the machine goes on is how the model reads "refused"
there (log 5). -/
def Obligations.ReservedCodesDoNothing : Prop :=
  ∀ s : State, exec .reservedOp6 s = .next { s with result := .none } ∧
    exec .reservedOp7 s = .next { s with result := .none }

/-- What the host command port carries back (R92, R93, R95): 3 bits for POLL with codes 0 to 5, 2 bits for TRANSMIT with codes
0 to 2, the 16-bit register for a GET, nothing for a SET and for the reserved codes. -/
def Obligations.HostPortResultsHaveTheirCodes : Prop :=
  ∀ (s t : State),
    (∀ now, exec (.poll now) s = .next t → ∃ n, n ≤ 5 ∧ t.result.onPort = some ⟨3, n⟩) ∧
    (∀ c k p now, exec (.transmit c k p now) s = .next t → t.result.onPort =
      some ⟨2, if s.tx.valid = true then 1 else if 177 < p.length then 2 else 0⟩) ∧
    (exec .getAckTimeout s = .next t → t.result.onPort = some ⟨16, s.ackTimeoutMs.toNat⟩) ∧
    (exec .getByteTimeout s = .next t → t.result.onPort = some ⟨16, s.byteTimeoutMs.toNat⟩) ∧
    (∀ v, exec (.setAckTimeout v) s = .next t ∨ exec (.setByteTimeout v) s = .next t → t.result.onPort = none) ∧
    (exec .reservedOp6 s = .next t ∨ exec .reservedOp7 s = .next t → t.result.onPort = none)

/-- RESET (R260): every register of `St` at its reset value, from any state; the configuration, the queue and what was sent
stay (R262). -/
def Obligations.ResetSetsEveryRegister : Prop :=
  ∀ s : State, exec .reset s = .next { s with
    ackTimeoutMs := s.cfg.ackTimeoutReset
    byteTimeoutMs := s.cfg.byteTimeoutReset
    rx := ⟨.waitSof, [], 0#8, 0#8, 0#32⟩
    tx := ⟨false, [], 0#8, 0#8, 0#32⟩
    dd := ⟨false, 0#8, 0#8, [], 0#32⟩
    result := .none }

/-- The reset column of R45, with every byte of the three buffers `0x00`. -/
def Obligations.ResetStateIsTheResetColumn : Prop :=
  State.reset.ackTimeoutMs = 1600#16 ∧ State.reset.byteTimeoutMs = 250#16 ∧ State.reset.rx.state = .waitSof ∧
  (∀ a, State.reset.rx.buf.read a = 0x00#8) ∧ State.reset.rx.count = 0#8 ∧ State.reset.rx.remaining = 0#8 ∧
  State.reset.rx.lastTime = 0#32 ∧ State.reset.tx.valid = false ∧ (∀ a, State.reset.tx.buf.read a = 0x00#8) ∧
  State.reset.tx.len = 0#8 ∧ State.reset.tx.retry = 0#8 ∧ State.reset.tx.sendTime = 0#32 ∧ State.reset.dd.valid = false ∧
  State.reset.dd.cmd = 0#8 ∧ State.reset.dd.plen = 0#8 ∧ (∀ a, State.reset.dd.payload.read a = 0x00#8) ∧
  State.reset.dd.time = 0#32

/-- The first operations after RESET (R264), from any state with a legal configuration. -/
def Obligations.FirstOperationsAfterReset : Prop :=
  ∀ (s t : State) (now : Time), s.cfg.legal = true → exec .reset s = .next t →
    (t.rxq = [] → exec (.poll now) t = .next { t with result := .outcome .idle }) ∧
    (∀ c k p, p.length ≤ 177 → ∃ u, exec (.transmit c k p now) t = .next u ∧ u.result = .transmit .accepted) ∧
    exec .getAckTimeout t = .next { t with result := .value s.cfg.ackTimeoutReset } ∧
    exec .getByteTimeout t = .next { t with result := .value s.cfg.byteTimeoutReset } ∧
    (∀ f : Frame, f.payload.length ≤ 177 → ∃ u, exec (.screen f now) t = .next u ∧
      u.events = t.events ++ [.deliver f, .txBytes [s.cfg.ack], .evFrameReceived]) ∧
    (∃ u, exec (.ack now) t = .next u ∧ u.events = t.events ++ [.evStray .ack]) ∧
    (∃ u, exec (.nak now) t = .next u ∧ u.events = t.events ++ [.evStray .nak]) ∧
    (∃ u, exec (.can now) t = .next u ∧ u.events = t.events ++ [.evStray .can])

/-! ### The whole machine -/

/-- The reset state meets the invariants of R31, R37 and R42. -/
def Obligations.ResetStateMeetsTheInvariant : Prop := State.reset.Inv

/-- Every step keeps the invariants of R31, R37, R40 and R42 and the canonical form of the three buffers, from every state
that meets them. -/
def Obligations.EveryStepKeepsTheInvariant : Prop :=
  ∀ s t : State, s.Inv → step s = .next t → t.Inv

/-- Every operation is total (R222): it completes from every state, whatever its operands; a well-formed one from a state that
meets the invariant completes in a state that meets it. -/
def Obligations.EveryOperationCompletes : Prop :=
  ∀ (i : Instr) (s : State), ∃ t, exec i s = .next t ∧ (s.Inv → i.wellFormed s.cfg = true → t.Inv)

/-- A step with a legal configuration stops only on a request that is no operation, or one that the environment cannot issue
(R9, R98): never with a fault (R222), in any state. -/
def Obligations.StepNeverFaults : Prop :=
  ∀ s : State, s.cfg.legal = true → (∃ t, step s = .next t ∧ (s.Inv → t.Inv)) ∨
    (∃ c rest e, s.requests = .issue c :: rest ∧ decode s.cfg c = .error e ∧ step s = .refused (.undecodable e)) ∨
    ∃ c rest i more, s.requests = .issue c :: rest ∧ decode s.cfg c = .ok (i, more) ∧ issuable i = false ∧
      step s = .refused (.notIssuable i)

/-- What an operation does with an index outside a private array, which arises only in states that break R31, R37 or R42, or
from a frame that breaks R13: it completes (R222) and does everything its rule says, except that a byte outside the array is
not stored, and one read outside it may be any byte. That these two are so is the model's choice (log 8). The five clauses:
RXBYTE in `WaitPayload`, RXBYTE in `WaitChecksum`, a retransmission, SCREEN against an overlong record, SCREEN of an overlong
payload. -/
def Obligations.IndexOutsideABufferCompletes : Prop :=
  ∀ (s : State) (now : Time),
    (∀ b, s.rx.state = .waitPayload → 180 ≤ s.rx.count.toNat → (now - s.rx.lastTime).toNat < s.byteTimeoutMs.toNat →
      exec (.rxbyte b now) s = .next { s with
        rx := ⟨if s.rx.remaining = 1#8 then .waitChecksum else .waitPayload, s.rx.buf, s.rx.count + 1#8,
          s.rx.remaining - 1#8, now⟩
        result := .terminal false }) ∧
    (s.rx.state = .waitChecksum → 180 < s.rx.count.toNat → (now - s.rx.lastTime).toNat < s.byteTimeoutMs.toNat →
      ∃ stored : List Byte, stored.length = s.rx.count.toNat ∧ stored.take 180 = (List.range 180).map s.rx.buf.read ∧
        ∀ b, let c := ~~~ (stored.foldl (· ^^^ ·) 0#8)
          let idle : State := { s with rx := ⟨.waitSof, [], 0#8, 0#8, 0#32⟩ }
          (b ≠ c → exec (.rxbyte b now) s = .next { idle with
            events := s.events ++ [.evChecksumFailed, .txBytes [s.cfg.nak]], result := .terminal true }) ∧
          (b = c → s.rx.buf.read 1 ≠ s.cfg.kindReq → s.rx.buf.read 1 ≠ s.cfg.kindRsp → exec (.rxbyte b now) s =
            .next { idle with events := s.events ++ [.evBadKind (s.rx.buf.read 1)], result := .terminal true }) ∧
          (b = c → s.rx.buf.read 1 = s.cfg.kindReq → exec (.rxbyte b now) s = withResult (.terminal true)
            (exec (.screen ⟨.request, s.rx.buf.read 2, stored.drop 3⟩ now) idle)) ∧
          (b = c → s.cfg.legal = true → s.rx.buf.read 1 = s.cfg.kindRsp → exec (.rxbyte b now) s =
            withResult (.terminal true) (exec (.screen ⟨.response, s.rx.buf.read 2, stored.drop 3⟩ now) idle))) ∧
    (s.tx.valid = true → s.tx.retry.toNat < s.cfg.maxRetries.toNat → 182 < s.tx.len.toNat →
      ∃ bs : List Byte, bs.length = s.tx.len.toNat ∧ bs.take 182 = (List.range 182).map s.tx.buf.read ∧
        let again (c : RetryCause) : State := { s with
          tx := { s.tx with retry := s.tx.retry + 1#8, sendTime := now }
          events := s.events ++ [.txBytes bs, .evRetransmit c], result := .none }
        exec (.ctrlNak now) s = .next (again .nak) ∧
        (s.ackTimeoutMs.toNat ≤ (now - s.tx.sendTime).toNat → exec (.txchk now) s = .next (again .timeout))) ∧
    (177 < s.dd.plen.toNat →
      ∃ p : List Byte, p.length = s.dd.plen.toNat ∧ p.take 177 = (List.range 177).map s.dd.payload.read ∧
        ∀ f : Frame, let suppressed := s.dd.valid = true ∧ s.dd.cmd = f.command ∧ p = f.payload ∧
            (now - s.dd.time).toNat < s.cfg.dedupWindowMs.toNat
          (suppressed → exec (.screen f now) s =
            .next { s with events := s.events ++ [.txBytes [s.cfg.ack], .evDupSuppressed], result := .none }) ∧
          (¬ suppressed → ∃ m, exec (.screen f now) s = .next { s with
              dd := ⟨true, f.command, BitVec.ofNat 8 f.payload.length, m, now⟩
              events := s.events ++ [.deliver f, .txBytes [s.cfg.ack], .evFrameReceived]
              result := .none } ∧
            ∀ a, m.read a = if a < min f.payload.length 177 then f.payload.getD a 0#8 else 0#8)) ∧
    (∀ f : Frame, s.dd.plen.toNat ≤ 177 → 177 < f.payload.length → ∃ m, exec (.screen f now) s = .next { s with
        dd := ⟨true, f.command, BitVec.ofNat 8 f.payload.length, m, now⟩
        events := s.events ++ [.deliver f, .txBytes [s.cfg.ack], .evFrameReceived]
        result := .none } ∧
      ∀ a, m.read a = if a < 177 then f.payload.getD a 0#8 else 0#8)

/-- What CORE puts on the wire (R91, R146): encoded frames, `[ACK]` and `[NAK]`, nothing else; and it takes nothing back
(R65). -/
def Obligations.CoreSendsOnlyFramesAcksAndNaks : Prop :=
  ∀ (i : Instr) (s t : State), s.Inv → i.wellFormed s.cfg = true → exec i s = .next t →
    ∃ es, t.events = s.events ++ es ∧ ∀ bs, .txBytes bs ∈ es →
      bs = [s.cfg.ack] ∨ bs = [s.cfg.nak] ∨ ∃ f, decodeFrame s.cfg bs = .frame f

/-- One control byte for each frame (R168, R194): an ACK for each delivery and each suppression, a NAK for each checksum
failure, never a CAN, and one delivery for each `EvFrameReceived`. -/
def Obligations.OneControlByteForEachFrame : Prop :=
  ∀ (i : Instr) (s t : State), s.Inv → i.wellFormed s.cfg = true → exec i s = .next t →
    ∃ es, t.events = s.events ++ es ∧
      es.count (.txBytes [s.cfg.ack]) = es.count .evFrameReceived + es.count .evDupSuppressed ∧
      es.count (.txBytes [s.cfg.nak]) = es.count .evChecksumFailed ∧ es.count (.txBytes [s.cfg.can]) = 0 ∧
      es.countP Event.isDeliver = es.count .evFrameReceived

/-- Events are only ever added, and so are the bytes of the TX byte stream (R8, R65, R72). -/
def Obligations.EventsAreNeverTakenBack : Prop :=
  ∀ (i : Instr) (s t : State), exec i s = .next t → s.events <+: t.events ∧ s.txStream <+: t.txStream

/-- Who writes what (R6, R20, R23, R24, R46): nothing writes the configuration or the environment's requests; a timeout is
written by its SET and by RESET only; the queue is taken from by POLL only. -/
def Obligations.OnlyTheirOperationsWrite : Prop :=
  ∀ (i : Instr) (s t : State), exec i s = .next t →
    t.cfg = s.cfg ∧ t.requests = s.requests ∧
    ((∀ v, i ≠ .setAckTimeout v) → i ≠ .reset → t.ackTimeoutMs = s.ackTimeoutMs) ∧
    ((∀ v, i ≠ .setByteTimeout v) → i ≠ .reset → t.byteTimeoutMs = s.byteTimeoutMs) ∧
    ((∀ now, i ≠ .poll now) → t.rxq = s.rxq)

/-- Each sub-block is touched by its own operations only (R43, R171, R232). -/
def Obligations.SubBlocksAreTouchedByTheirOwnersOnly : Prop :=
  ∀ (s t : State) (now : Time),
    (∀ c k p, exec (.transmit c k p now) s = .next t → t.rx = s.rx ∧ t.dd = s.dd) ∧
    (exec (.ctrlAck now) s = .next t → t.rx = s.rx ∧ t.dd = s.dd) ∧
    (exec (.ctrlNak now) s = .next t → t.rx = s.rx ∧ t.dd = s.dd) ∧
    (exec (.ctrlCan now) s = .next t → t.rx = s.rx ∧ t.dd = s.dd) ∧
    (exec (.txchk now) s = .next t → t.rx = s.rx ∧ t.dd = s.dd) ∧
    (exec (.rxidle now) s = .next t → t.tx = s.tx ∧ t.dd = s.dd) ∧
    (∀ f, exec (.screen f now) s = .next t → t.rx = s.rx ∧ t.tx = s.tx) ∧
    (exec (.ddchk now) s = .next t → t.rx = s.rx ∧ t.tx = s.tx)

/-- Duplex (R171): what the receive side does with a byte of a frame and with a screened frame does not depend on the
Outstanding Transmission, and leaves it as it is. -/
def Obligations.ReceptionDoesNotDependOnTheTransmission : Prop :=
  ∀ (s : State) (x : Outstanding) (i : Instr),
    (∃ f now, i = .screen f now) ∨ (∃ now, i = .rxidle now) ∨
      (∃ b now, i = .rxbyte b now ∧ s.rx.state ≠ .waitSof ∧ (now - s.rx.lastTime).toNat < s.byteTimeoutMs.toNat) →
    ∃ t, exec i s = .next t ∧ t.tx = s.tx ∧ exec i { s with tx := x } = .next { t with tx := x }

/-- A byte timeout of 0 makes reception impossible (R130, R273): no operation that consumes bytes ends a frame, in any of the
ways of R141, or delivers one. -/
def Obligations.ZeroByteTimeoutStopsReception : Prop :=
  ∀ (i : Instr) (s t : State), s.byteTimeoutMs = 0#16 → (∀ f now, i ≠ .screen f now) → exec i s = .next t →
    ∃ es, t.events = s.events ++ es ∧ es.countP Event.endsFrame = 0 ∧ es.countP Event.isDeliver = 0

/-! ### Steps -/

/-- A step runs the operation decoded from the next request, if the environment can issue it; what is left of the code stays
the next request. Which operations it cannot issue is SubStepsAreNotIssuable. The request list is the model's form of "the
environment chooses which operation runs next" (R8; log 2). -/
def Obligations.StepRunsTheDecodedOperation : Prop :=
  ∀ (s : State) (c : Code) (rest : List Request) (i : Instr) (more : Option Code), s.cfg.legal = true →
    s.requests = .issue c :: rest → decode s.cfg c = .ok (i, more) → issuable i = true →
    step s = exec i { s with requests := match more with | none => rest | some d => .issue d :: rest }

/-- The other steps: a configuration that breaks R7 is refused; bytes arrive at the tail of the queue and change nothing else
(R46, R71); with nothing requested nothing changes (the model's choice, log 2). -/
def Obligations.StepsThatRunNoOperation : Prop :=
  ∀ s : State,
    (s.cfg.legal = false → step s = .refused .illegalCfg) ∧
    (s.cfg.legal = true → s.requests = [] → step s = .next s) ∧
    (∀ bs rest, s.cfg.legal = true → s.requests = .arrive bs :: rest →
      step s = .next { s with rxq := s.rxq ++ bs, requests := rest }) ∧
    (∀ c rest e, s.cfg.legal = true → s.requests = .issue c :: rest → decode s.cfg c = .error e →
      step s = .refused (.undecodable e))

/-- What the environment cannot issue: exactly the sub-steps of RXBYTE, "not separately issuable" (R98), and the pure operations
of the codec, which are not reachable from outside (R9). That RXBYTE, RXIDLE, TXCHK and DDCHK can be steps is the exposure that
R9 allows, and that a wire unit can is the model's choice (log 6). -/
def Obligations.SubStepsAreNotIssuable : Prop :=
  ∀ (s : State) (c : Code) (rest : List Request) (i : Instr) (more : Option Code), s.cfg.legal = true →
    s.requests = .issue c :: rest → decode s.cfg c = .ok (i, more) →
    ((∃ r, step s = .refused r) ↔
      (∃ now, i = .ctrlAck now) ∨ (∃ now, i = .ctrlNak now) ∨ (∃ now, i = .ctrlCan now) ∨ (∃ f now, i = .screen f now) ∨
      (∃ bs, i = .checksum bs) ∨ (∃ cmd k p, i = .encode cmd k p) ∨ (∃ bs, i = .decode bs) ∨ ∃ b, i = .classify b) ∧
    (issuable i = false → step s = .refused (.notIssuable i))
end

