-- ==== Sys2Proof/Laws/Codec.lean ====
section
/-! SUPPORT. The laws of exclusive-or, checksum and kind codes, and the shape of an encoded frame. -/

namespace Sys2Proof

variable {cfg : Cfg} {bs cs : List Byte} {b : Byte} {k : Kind}

theorem foldl_xor (a : Byte) (bs : List Byte) : bs.foldl (· ^^^ ·) a = a ^^^ xorAll bs := by
  unfold xorAll
  induction bs generalizing a with
  | nil => simp
  | cons b bs ih => rw [List.foldl_cons, List.foldl_cons, ih, ih (0#8 ^^^ b)]; simp [BitVec.xor_assoc]

@[simp] theorem xorAll_nil : xorAll [] = 0#8 := rfl

@[simp] theorem xorAll_cons : xorAll (b :: bs) = b ^^^ xorAll bs := by
  rw [xorAll, List.foldl_cons, foldl_xor]; simp

@[simp] theorem xorAll_append : xorAll (bs ++ cs) = xorAll bs ^^^ xorAll cs := by
  induction bs with
  | nil => simp
  | cons b bs ih => simp [ih, BitVec.xor_assoc]

/-- The checksum does not depend on the order of the bytes (R110). -/
theorem xorAll_perm (h : bs.Perm cs) : xorAll bs = xorAll cs := by
  induction h with
  | nil => rfl
  | cons _ _ ih => simp [ih]
  | swap x y _ => simp only [xorAll_cons, ← BitVec.xor_assoc]; rw [BitVec.xor_comm x y]
  | trans _ _ h₁ h₂ => exact h₁.trans h₂

/-- Changing one byte changes the exclusive-or by the same bits (R115). -/
theorem xorAll_set {i : Nat} (h : i < bs.length) (d : Byte) :
    xorAll (bs.set i (bs[i] ^^^ d)) = xorAll bs ^^^ d := by
  induction bs generalizing i with
  | nil => simp at h
  | cons b bs ih =>
    cases i with
    | zero => simp [BitVec.xor_assoc, BitVec.xor_comm d]
    | succ i => simp only [List.set_cons_succ, List.getElem_cons_succ, xorAll_cons]; rw [ih]; simp [BitVec.xor_assoc]

theorem kindOf_kindCode (h : cfg.kindReq ≠ cfg.kindRsp) (k : Kind) : kindOf cfg (kindCode cfg k) = some k := by
  cases k
  · simp [kindOf, kindCode]
  · simp [kindOf, kindCode, Ne.symm h]

theorem kindCode_of_kindOf (h : kindOf cfg b = some k) : kindCode cfg k = b := by
  unfold kindOf at h
  split at h
  · cases h; exact Eq.symm ‹_›
  · split at h
    · cases h; exact Eq.symm ‹_›
    · cases h

theorem legal_iff : cfg.legal = true ↔ cfg.sof ≠ cfg.ack ∧ cfg.sof ≠ cfg.nak ∧ cfg.sof ≠ cfg.can ∧ cfg.ack ≠ cfg.nak ∧
    cfg.ack ≠ cfg.can ∧ cfg.nak ≠ cfg.can ∧ cfg.kindReq ≠ cfg.kindRsp ∧ cfg.dedupWindowMs.toNat < 2 ^ 31 := by
  simp only [Cfg.legal, Bool.and_eq_true, bne_iff_ne, decide_eq_true_eq, and_assoc]

theorem legal_kinds (h : cfg.legal = true) : cfg.kindReq ≠ cfg.kindRsp := (legal_iff.1 h).2.2.2.2.2.2.1

@[simp] theorem classify_sof : classify cfg cfg.sof = .leadSof := by simp [classify]

theorem classify_ack (h : cfg.legal = true) : classify cfg cfg.ack = .symAck := by
  have := legal_iff.1 h
  simp [classify, this.1.symm]

theorem classify_nak (h : cfg.legal = true) : classify cfg cfg.nak = .symNak := by
  have := legal_iff.1 h
  simp [classify, this.2.1.symm, this.2.2.2.1.symm]

theorem classify_can (h : cfg.legal = true) : classify cfg cfg.can = .symCan := by
  have := legal_iff.1 h
  simp [classify, this.2.2.1.symm, this.2.2.2.2.1.symm, this.2.2.2.2.2.1.symm]

/-- What each class of a lead byte says of the byte (R113). -/
theorem classify_cases (cfg : Cfg) (b : Byte) :
    (classify cfg b = .leadSof ∧ b = cfg.sof) ∨ (classify cfg b = .symAck ∧ b = cfg.ack) ∨
      (classify cfg b = .symNak ∧ b = cfg.nak) ∨ (classify cfg b = .symCan ∧ b = cfg.can) ∨
      (classify cfg b = .noise ∧ b ≠ cfg.sof ∧ b ≠ cfg.ack ∧ b ≠ cfg.nak ∧ b ≠ cfg.can) := by
  unfold classify
  split
  · simp [*]
  · split
    · simp [*]
    · split
      · simp [*]
      · split <;> simp [*]

theorem classify_eq_leadSof (cfg : Cfg) (b : Byte) : classify cfg b = .leadSof ↔ b = cfg.sof := by
  refine ⟨fun h => ?_, fun h => h ▸ classify_sof⟩
  rcases classify_cases cfg b with hc | hc | hc | hc | hc
  · exact hc.2
  all_goals rw [hc.1] at h; cases h

theorem lenByte_toNat {n : Nat} (h : n < 256) : (lenByte n).toNat = n := by
  simp [lenByte, Nat.mod_eq_of_lt h]

theorem length_frameBytes (cfg : Cfg) (c : Byte) (k : Kind) (p : List Byte) :
    (frameBytes cfg c k p).length = p.length + 5 := by
  simp [frameBytes]

/-- An encoded frame decodes to its fields (R114). -/
theorem decodeFrame_frameBytes (h : cfg.kindReq ≠ cfg.kindRsp) (c : Byte) (k : Kind) (p : List Byte)
    (hp : p.length ≤ maxPayload) : decodeFrame cfg (frameBytes cfg c k p) = .frame ⟨k, c, p⟩ := by
  have hp' : p.length ≤ 177 := hp
  have e : frameBytes cfg c k p = cfg.sof :: lenByte (p.length + 3) :: kindCode cfg k :: c :: (p ++
    [checksum ([lenByte (p.length + 3), kindCode cfg k, c] ++ p)]) := by simp [frameBytes]
  have hlen : (frameBytes cfg c k p).length = p.length + 5 := length_frameBytes cfg c k p
  have hlast : byteAt (frameBytes cfg c k p) (p.length + 5 - 1) =
      checksum ([lenByte (p.length + 3), kindCode cfg k, c] ++ p) := by
    rw [e, byteAt]; simp
  have hbody : slice (frameBytes cfg c k p) 1 (p.length + 5 - 2) = [lenByte (p.length + 3), kindCode cfg k, c] ++ p := by
    rw [e, slice]; simp
  have hpay : slice (frameBytes cfg c k p) 4 (p.length + 5 - 2) = p := by
    rw [e, slice]; simp
  unfold decodeFrame
  simp only [hlen, hlast, hbody, hpay]
  rw [if_neg, if_neg (by simp), if_neg]
  · simp [e, byteAt, kindOf_kindCode h]
  · simp [e, byteAt, lenByte_toNat (show p.length + 3 < 256 by omega)]
  · simp [e, byteAt, txBufSize]; omega

/-- `DECODE` accepts nothing but encoded frames (R114). -/
theorem decodeFrame_frame {f : Frame} (h : decodeFrame cfg bs = .frame f) :
    f.payload.length ≤ 177 ∧ frameBytes cfg f.command f.kind f.payload = bs := by
  simp only [decodeFrame] at h
  split at h
  · cases h
  rename_i h1
  split at h
  · cases h
  rename_i h2
  split at h
  · cases h
  rename_i h3
  split at h
  · cases h
  rename_i k hk
  cases h
  simp only [not_or, not_lt, not_not, txBufSize, ne_eq] at h1 h2 h3
  obtain ⟨a, l, kb, c, rest, rfl⟩ : ∃ a l k c r, bs = a :: l :: k :: c :: r := by
    match bs, h1.1 with
    | a :: l :: k :: c :: r, _ => exact ⟨a, l, k, c, r, rfl⟩
    | [_, _, _], h => simp at h
    | [_, _], h => simp at h
    | [_], h => simp at h
    | [], h => simp at h
  have hne : rest ≠ [] := by rintro rfl; simp at h1
  obtain ⟨p, x, rfl⟩ : ∃ p x, rest = p ++ [x] :=
    ⟨rest.dropLast, rest.getLast hne, (List.dropLast_concat_getLast hne).symm⟩
  simp [byteAt, slice] at h1 h2 h3 hk ⊢
  refine ⟨by omega, ?_⟩
  have := kindCode_of_kindOf hk
  simp [frameBytes, this, h1, h2]
  simp [lenByte, ← h3]

end Sys2Proof
end

