-- ==== Sys2Proof/Laws/Memory.lean ====
section
/-! SUPPORT. The laws of the private byte arrays: read after write, the canonical form is kept, the bytes above the last
write stay `0x00`, and equal contents are equal data. -/

namespace Sys2Proof.Machine.Memory

variable {m m' : Memory} {a a' lo n : Nat} {b : Byte} {bs : List Byte}

@[simp] theorem read_nil : Memory.read [] a = 0#8 := rfl

theorem read_erase (m : Memory) (a a' : Nat) : (erase a m).read a' = if a' = a then 0#8 else m.read a' := by
  induction m with
  | nil => simp [erase]
  | cons c m ih =>
    obtain ⟨k, v⟩ := c
    by_cases hk : k = a
    · subst hk
      by_cases ha : a' = k
      · subst ha; simpa [erase] using ih
      · simp [erase, read, ih, ha, Ne.symm ha]
    · by_cases hk' : k = a'
      · subst hk'; simp [erase, read, hk]
      · simp [erase, read, ih, hk, hk']

theorem read_place (hm : ∀ c ∈ m, c.1 ≠ a) (a' : Nat) :
    (place a b m).read a' = if a' = a then b else m.read a' := by
  induction m with
  | nil =>
    by_cases ha : a = a'
    · simp [place, read, ha]
    · simp [place, read, ha, Ne.symm ha]
  | cons c m ih =>
    obtain ⟨k, v⟩ := c
    have hk : k ≠ a := hm (k, v) (by simp)
    have ih := ih fun c hc => hm c (by simp [hc])
    by_cases hlt : a < k
    · by_cases ha : a = a'
      · subst ha; simp [place, read, hlt]
      · simp [place, read, hlt, ha, Ne.symm ha]
    · by_cases hk' : k = a'
      · subst hk'; simp [place, read, hlt, hk]
      · simp [place, read, hlt, hk', ih]

theorem erase_avoids (m : Memory) (a : Nat) : ∀ c ∈ erase a m, c.1 ≠ a := by
  induction m with
  | nil => simp [erase]
  | cons c m ih =>
    obtain ⟨k, v⟩ := c
    simp only [erase]
    split
    · exact ih
    · simpa [*] using ih

/-- Read after write: the byte written there, every other byte as before. -/
@[simp] theorem read_write (m : Memory) (a : Nat) (b : Byte) (a' : Nat) :
    (m.write a b).read a' = if a' = a then b else m.read a' := by
  unfold write
  split
  · simp_all [read_erase]
  · rw [read_place (erase_avoids m a), read_erase]
    split <;> rfl

theorem wfFrom_mono (h : wfFrom lo m = true) (hlo : n ≤ lo) : wfFrom n m = true := by
  cases m with
  | nil => rfl
  | cons c m => simp only [wfFrom, Bool.and_eq_true, decide_eq_true_eq] at *; exact ⟨⟨by omega, h.1.2⟩, h.2⟩

theorem wfFrom_erase (h : wfFrom lo m = true) (a : Nat) : wfFrom lo (erase a m) = true := by
  induction m generalizing lo with
  | nil => rfl
  | cons c m ih =>
    simp only [wfFrom, Bool.and_eq_true, decide_eq_true_eq] at h
    simp only [erase]
    split
    · exact wfFrom_mono (ih h.2) (by omega)
    · simp only [wfFrom, Bool.and_eq_true, decide_eq_true_eq]
      exact ⟨h.1, ih h.2⟩

theorem wfFrom_place (h : wfFrom lo m = true) (hm : ∀ c ∈ m, c.1 ≠ a) (hlo : lo ≤ a) (hb : b ≠ 0#8) :
    wfFrom lo (place a b m) = true := by
  induction m generalizing lo with
  | nil => simp [place, wfFrom, hlo, hb]
  | cons c m ih =>
    obtain ⟨k, v⟩ := c
    simp only [wfFrom, Bool.and_eq_true, decide_eq_true_eq] at h
    have hk : k ≠ a := hm (k, v) (by simp)
    simp only [place]
    split
    · simp only [wfFrom, Bool.and_eq_true, decide_eq_true_eq]
      exact ⟨⟨hlo, by simpa using hb⟩, ⟨by omega, h.1.2⟩, h.2⟩
    · simp only [wfFrom, Bool.and_eq_true, decide_eq_true_eq]
      exact ⟨h.1, ih h.2 (fun c hc => hm c (by simp [hc])) (by omega)⟩

/-- A write keeps the canonical form. -/
theorem wf_write (h : m.wf = true) (a : Nat) (b : Byte) : (m.write a b).wf = true := by
  unfold write
  split
  · exact wfFrom_erase h a
  · exact wfFrom_place (wfFrom_erase h a) (erase_avoids m a) (Nat.zero_le a) ‹_›

/-- A write of a list keeps the canonical form. -/
theorem wf_writeBytes (h : m.wf = true) (a : Nat) (bs : List Byte) : (m.writeBytes a bs).wf = true := by
  induction bs generalizing m a with
  | nil => exact h
  | cons b bs ih => exact ih (wf_write h a b) (a + 1)

/-- Read after a write of a list. -/
theorem read_writeBytes (m : Memory) (a : Nat) (bs : List Byte) (a' : Nat) :
    (m.writeBytes a bs).read a' = if a ≤ a' ∧ a' < a + bs.length then bs.getD (a' - a) 0#8 else m.read a' := by
  induction bs generalizing m a with
  | nil => simp [writeBytes]
  | cons b bs ih =>
    simp only [writeBytes, ih, read_write, List.length_cons]
    by_cases h1 : a' = a
    · subst h1; simp
    · by_cases h2 : a + 1 ≤ a' ∧ a' < a + 1 + bs.length
      · rw [if_pos h2, if_pos (by omega)]
        obtain ⟨d, rfl⟩ : ∃ d, a' = a + 1 + d := ⟨a' - (a + 1), by omega⟩
        simp [show a + 1 + d - a = d + 1 by omega, show a + 1 + d - (a + 1) = d by omega]
      · rw [if_neg h2, if_neg h1, if_neg (by omega)]

@[simp] theorem length_readBytes (m : Memory) (a n : Nat) : (m.readBytes a n).length = n := by
  induction n generalizing a with
  | zero => rfl
  | succ n ih => simp [readBytes, ih]

theorem getElem_readBytes (m : Memory) (a n i : Nat) (h : i < n) :
    (m.readBytes a n)[i]'(by simpa using h) = m.read (a + i) := by
  induction n generalizing a i with
  | zero => omega
  | succ n ih =>
    cases i with
    | zero => simp [readBytes]
    | succ i => simp only [readBytes, List.getElem_cons_succ]; rw [ih (a + 1) i (by omega)]; congr 1; omega

/-- The list read is the bytes read one by one. -/
theorem readBytes_eq_map (m : Memory) (n : Nat) : m.readBytes 0 n = (List.range n).map m.read := by
  apply List.ext_getElem
  · simp
  · intro i h _
    rw [getElem_readBytes m 0 n i (by simpa using h)]; simp

/-- Two memories that read alike in a range give the same list. -/
theorem readBytes_congr (h : ∀ i, i < n → m.read (a + i) = m'.read (a + i)) : m.readBytes a n = m'.readBytes a n := by
  induction n generalizing a with
  | zero => rfl
  | succ n ih =>
    simp only [readBytes]
    rw [show m.read a = m'.read a by simpa using h 0 (by omega)]
    rw [ih fun i hi => by rw [show a + 1 + i = a + (i + 1) by omega]; exact h (i + 1) (by omega)]

/-- A list written at 0 reads back. -/
theorem readBytes_writeBytes (m : Memory) (bs : List Byte) : (m.writeBytes 0 bs).readBytes 0 bs.length = bs := by
  apply List.ext_getElem
  · simp
  · intro i h h2
    rw [getElem_readBytes _ 0 _ i h2, read_writeBytes]
    simp [h2]

/-- A longer list is a shorter one and the next byte. -/
theorem readBytes_succ (m : Memory) (a n : Nat) : m.readBytes a (n + 1) = m.readBytes a n ++ [m.read (a + n)] := by
  induction n generalizing a with
  | zero => simp [readBytes]
  | succ n ih =>
    rw [show m.readBytes a (n + 1 + 1) = m.read a :: m.readBytes (a + 1) (n + 1) from rfl, ih,
      show a + 1 + n = a + (n + 1) by omega]
    simp [readBytes]

theorem below_iff : m.below n = true ↔ ∀ c ∈ m, c.1 < n := by simp [below]

theorem mem_erase {c : Host.Cell} (h : c ∈ erase a m) : c ∈ m := by
  induction m with
  | nil => simp [erase] at h
  | cons d m ih =>
    simp only [erase] at h
    split at h
    · exact List.mem_cons_of_mem _ (ih h)
    · rcases List.mem_cons.1 h with h | h
      · exact h ▸ List.mem_cons_self
      · exact List.mem_cons_of_mem _ (ih h)

theorem mem_place {c : Host.Cell} (h : c ∈ place a b m) : c = (a, b) ∨ c ∈ m := by
  induction m with
  | nil => simpa [place] using h
  | cons d m ih =>
    simp only [place] at h
    split at h
    · simpa using h
    · rcases List.mem_cons.1 h with h | h
      · exact .inr (h ▸ List.mem_cons_self)
      · exact (ih h).imp_right (List.mem_cons_of_mem _)

/-- A write below `n` leaves the bytes at and above `n` at `0x00`. -/
theorem below_write (h : m.below n = true) (ha : a < n) (b : Byte) : (m.write a b).below n = true := by
  rw [below_iff] at *
  intro c hc
  unfold write at hc
  split at hc
  · exact h c (mem_erase hc)
  · rcases mem_place hc with rfl | hc
    · exact ha
    · exact h c (mem_erase hc)

theorem below_mono (h : m.below n = true) (hn : n ≤ n') : m.below n' = true := by
  rw [below_iff] at *; exact fun c hc => Nat.lt_of_lt_of_le (h c hc) hn

theorem below_writeBytes (h : m.below n = true) (a : Nat) (bs : List Byte) (ha : a + bs.length ≤ n) :
    (m.writeBytes a bs).below n = true := by
  induction bs generalizing m a with
  | nil => exact h
  | cons b bs ih =>
    simp only [List.length_cons] at ha
    exact ih (below_write h (by omega) b) (a + 1) (by omega)

/-- A byte at or above the bound reads `0x00`. -/
theorem read_of_below (h : m.below n = true) (ha : n ≤ a) : m.read a = 0#8 := by
  induction m with
  | nil => rfl
  | cons c m ih =>
    rw [below_iff] at h
    have := h c (by simp)
    simp only [read]
    rw [if_neg (by omega)]
    exact ih (below_iff.2 fun c hc => h c (by simp [hc]))

theorem read_of_wfFrom (h : wfFrom lo m = true) (ha : a < lo) : m.read a = 0#8 := by
  induction m generalizing lo with
  | nil => rfl
  | cons c m ih =>
    simp only [wfFrom, Bool.and_eq_true, decide_eq_true_eq] at h
    simp only [read]
    rw [if_neg (by omega)]
    exact ih h.2 (by omega)

theorem ext_from (h : wfFrom lo m = true) (h' : wfFrom lo m' = true) (hr : ∀ a, m.read a = m'.read a) : m = m' := by
  induction m generalizing lo m' with
  | nil =>
    cases m' with
    | nil => rfl
    | cons c m' =>
      simp only [wfFrom, Bool.and_eq_true, decide_eq_true_eq] at h'
      have := hr c.1
      simp [read] at this
      simp [← this] at h'
  | cons c m ih =>
    obtain ⟨k, v⟩ := c
    have hc := h
    simp only [wfFrom, Bool.and_eq_true, decide_eq_true_eq] at h
    have hv : v ≠ 0#8 := by simpa using h.1.2
    cases m' with
    | nil => exact absurd (by simpa [read] using hr k) hv
    | cons c' m' =>
      obtain ⟨k', v'⟩ := c'
      have hc' := h'
      simp only [wfFrom, Bool.and_eq_true, decide_eq_true_eq] at h'
      have hv' : v' ≠ 0#8 := by simpa using h'.1.2
      have hk : k = k' := by
        rcases Nat.lt_trichotomy k k' with hlt | rfl | hlt
        · have := hr k
          simp only [read, if_true, if_neg (show ¬ k' = k by omega)] at this
          rw [read_of_wfFrom h'.2 (by omega)] at this
          exact absurd this hv
        · rfl
        · have := hr k'
          simp only [read, if_true, if_neg (show ¬ k = k' by omega)] at this
          rw [read_of_wfFrom h.2 (by omega)] at this
          exact absurd this.symm hv'
      subst hk
      have hvv : v = v' := by simpa [read] using hr k
      subst hvv
      congr 1
      refine ih h.2 h'.2 fun a => ?_
      by_cases ha : k = a
      · subst ha; rw [read_of_wfFrom h.2 (by omega), read_of_wfFrom h'.2 (by omega)]
      · simpa [read, ha] using hr a

/-- Equal contents are equal data. -/
theorem ext_read (h : m.wf = true) (h' : m'.wf = true) (hr : ∀ a, m.read a = m'.read a) : m = m' := ext_from h h' hr

end Sys2Proof.Machine.Memory
end

