-- ==== Sys2Proof/Laws/State.lean ====
section
/-! SUPPORT. One lemma per field per update of the shared operations, so that no later proof unfolds a record update. -/

namespace Sys2Proof.Machine

variable (e : Event) (bs : List Byte) (s : State)

@[simp] theorem emit_ackTimeoutMs : (emit e s).ackTimeoutMs = s.ackTimeoutMs := rfl
@[simp] theorem emit_byteTimeoutMs : (emit e s).byteTimeoutMs = s.byteTimeoutMs := rfl
@[simp] theorem emit_rx : (emit e s).rx = s.rx := rfl
@[simp] theorem emit_tx : (emit e s).tx = s.tx := rfl
@[simp] theorem emit_dd : (emit e s).dd = s.dd := rfl
@[simp] theorem emit_cfg : (emit e s).cfg = s.cfg := rfl
@[simp] theorem emit_rxq : (emit e s).rxq = s.rxq := rfl
@[simp] theorem emit_events : (emit e s).events = s.events ++ [e] := rfl
@[simp] theorem emit_result : (emit e s).result = s.result := rfl
@[simp] theorem emit_requests : (emit e s).requests = s.requests := rfl

@[simp] theorem send_ackTimeoutMs : (send bs s).ackTimeoutMs = s.ackTimeoutMs := rfl
@[simp] theorem send_byteTimeoutMs : (send bs s).byteTimeoutMs = s.byteTimeoutMs := rfl
@[simp] theorem send_rx : (send bs s).rx = s.rx := rfl
@[simp] theorem send_tx : (send bs s).tx = s.tx := rfl
@[simp] theorem send_dd : (send bs s).dd = s.dd := rfl
@[simp] theorem send_cfg : (send bs s).cfg = s.cfg := rfl
@[simp] theorem send_rxq : (send bs s).rxq = s.rxq := rfl
@[simp] theorem send_events : (send bs s).events = s.events ++ [.txBytes bs] := rfl
@[simp] theorem send_result : (send bs s).result = s.result := rfl
@[simp] theorem send_requests : (send bs s).requests = s.requests := rfl

@[simp] theorem rxReset_ackTimeoutMs : (rxReset s).ackTimeoutMs = s.ackTimeoutMs := rfl
@[simp] theorem rxReset_byteTimeoutMs : (rxReset s).byteTimeoutMs = s.byteTimeoutMs := rfl
@[simp] theorem rxReset_rx : (rxReset s).rx = RxAssembly.idle := rfl
@[simp] theorem rxReset_tx : (rxReset s).tx = s.tx := rfl
@[simp] theorem rxReset_dd : (rxReset s).dd = s.dd := rfl
@[simp] theorem rxReset_cfg : (rxReset s).cfg = s.cfg := rfl
@[simp] theorem rxReset_rxq : (rxReset s).rxq = s.rxq := rfl
@[simp] theorem rxReset_events : (rxReset s).events = s.events := rfl
@[simp] theorem rxReset_result : (rxReset s).result = s.result := rfl
@[simp] theorem rxReset_requests : (rxReset s).requests = s.requests := rfl

@[simp] theorem txClear_ackTimeoutMs : (txClear s).ackTimeoutMs = s.ackTimeoutMs := rfl
@[simp] theorem txClear_byteTimeoutMs : (txClear s).byteTimeoutMs = s.byteTimeoutMs := rfl
@[simp] theorem txClear_rx : (txClear s).rx = s.rx := rfl
@[simp] theorem txClear_tx : (txClear s).tx = Outstanding.cleared := rfl
@[simp] theorem txClear_dd : (txClear s).dd = s.dd := rfl
@[simp] theorem txClear_cfg : (txClear s).cfg = s.cfg := rfl
@[simp] theorem txClear_rxq : (txClear s).rxq = s.rxq := rfl
@[simp] theorem txClear_events : (txClear s).events = s.events := rfl
@[simp] theorem txClear_result : (txClear s).result = s.result := rfl
@[simp] theorem txClear_requests : (txClear s).requests = s.requests := rfl

@[simp] theorem ddClear_ackTimeoutMs : (ddClear s).ackTimeoutMs = s.ackTimeoutMs := rfl
@[simp] theorem ddClear_byteTimeoutMs : (ddClear s).byteTimeoutMs = s.byteTimeoutMs := rfl
@[simp] theorem ddClear_rx : (ddClear s).rx = s.rx := rfl
@[simp] theorem ddClear_tx : (ddClear s).tx = s.tx := rfl
@[simp] theorem ddClear_dd : (ddClear s).dd = DedupRecord.absent := rfl
@[simp] theorem ddClear_cfg : (ddClear s).cfg = s.cfg := rfl
@[simp] theorem ddClear_rxq : (ddClear s).rxq = s.rxq := rfl
@[simp] theorem ddClear_events : (ddClear s).events = s.events := rfl
@[simp] theorem ddClear_result : (ddClear s).result = s.result := rfl
@[simp] theorem ddClear_requests : (ddClear s).requests = s.requests := rfl

@[simp] theorem arrive_ackTimeoutMs : (s.arrive bs).ackTimeoutMs = s.ackTimeoutMs := rfl
@[simp] theorem arrive_byteTimeoutMs : (s.arrive bs).byteTimeoutMs = s.byteTimeoutMs := rfl
@[simp] theorem arrive_rx : (s.arrive bs).rx = s.rx := rfl
@[simp] theorem arrive_tx : (s.arrive bs).tx = s.tx := rfl
@[simp] theorem arrive_dd : (s.arrive bs).dd = s.dd := rfl
@[simp] theorem arrive_cfg : (s.arrive bs).cfg = s.cfg := rfl
@[simp] theorem arrive_rxq : (s.arrive bs).rxq = s.rxq ++ bs := rfl
@[simp] theorem arrive_events : (s.arrive bs).events = s.events := rfl
@[simp] theorem arrive_result : (s.arrive bs).result = s.result := rfl
@[simp] theorem arrive_requests : (s.arrive bs).requests = s.requests := rfl

variable (more : Option Code)

@[simp] theorem putBack_ackTimeoutMs : (s.putBack more).ackTimeoutMs = s.ackTimeoutMs := by cases more <;> rfl
@[simp] theorem putBack_byteTimeoutMs : (s.putBack more).byteTimeoutMs = s.byteTimeoutMs := by cases more <;> rfl
@[simp] theorem putBack_rx : (s.putBack more).rx = s.rx := by cases more <;> rfl
@[simp] theorem putBack_tx : (s.putBack more).tx = s.tx := by cases more <;> rfl
@[simp] theorem putBack_dd : (s.putBack more).dd = s.dd := by cases more <;> rfl
@[simp] theorem putBack_cfg : (s.putBack more).cfg = s.cfg := by cases more <;> rfl
@[simp] theorem putBack_rxq : (s.putBack more).rxq = s.rxq := by cases more <;> rfl
@[simp] theorem putBack_events : (s.putBack more).events = s.events := by cases more <;> rfl
@[simp] theorem putBack_result : (s.putBack more).result = s.result := by cases more <;> rfl
@[simp] theorem putBack_none : s.putBack none = s := rfl

/-- A Receive Assembly State in `WaitSof` whose other registers are clear is the idle one. -/
@[simp] theorem idle_state : RxAssembly.idle.state = .waitSof := rfl
@[simp] theorem idle_count : RxAssembly.idle.count = 0#8 := rfl
@[simp] theorem idle_buf : RxAssembly.idle.buf = [] := rfl
@[simp] theorem cleared_valid : Outstanding.cleared.valid = false := rfl
@[simp] theorem absent_valid : DedupRecord.absent.valid = false := rfl

end Sys2Proof.Machine
end

