-- ==== Sys2Proof/Laws/Ops.lean ====
section
/-! SUPPORT. One lemma for each shared operation that says once everything it can do: the state it answers is one of these. -/

namespace Sys2Proof.Machine

variable {s t : State} {now : Time} {b : Byte} {f : Frame} {term : Bool}

/-- The status of a final failure for a cause (R164). -/
def failStatus : RetryCause → TxStatus
  | .nak => .failNak
  | .timeout => .failTimeout

theorem zext32_toNat (T : Millis) : (zext32 T).toNat = T.toNat := by
  have := T.isLt
  simp only [zext32, BitVec.toNat_setWidth]
  omega

theorem fresh_iff : s.fresh now = true ↔ (now - s.dd.time).toNat < s.cfg.dedupWindowMs.toNat := decide_eq_true_iff

theorem dedupEnded_iff : s.dedupEnded now = true ↔
    s.dd.valid = true ∧ s.cfg.dedupWindowMs.toNat ≤ (now - s.dd.time).toNat := by
  rw [State.dedupEnded, Bool.and_eq_true, expired, decide_eq_true_iff, elapsed]

theorem byteDeadline_iff : s.byteDeadline now = true ↔
    s.rx.state ≠ .waitSof ∧ s.byteTimeoutMs.toNat ≤ (now - s.rx.lastTime).toNat := by
  rw [State.byteDeadline, Bool.and_eq_true, expired, decide_eq_true_iff, elapsed, zext32_toNat, State.rxActive,
    bne_iff_ne]

theorem ackDeadline_iff : s.ackDeadline now = true ↔
    s.tx.valid = true ∧ s.ackTimeoutMs.toNat ≤ (now - s.tx.sendTime).toNat := by
  rw [State.ackDeadline, Bool.and_eq_true, expired, decide_eq_true_iff, elapsed, zext32_toNat, State.busy]

/-! ### The private arrays -/

@[simp] theorem length_loadArray (a : Buffer) (m : Memory) (n : Nat) (s : State) : (loadArray a m n s).length = n := by
  simp only [loadArray, List.length_append, Memory.length_readBytes, List.length_map, List.length_range']; omega

/-- Inside the array the bytes read are the bytes it holds. -/
theorem take_loadArray (a : Buffer) (m : Memory) (n : Nat) (s : State) :
    (loadArray a m n s).take a.size = m.readBytes 0 (min n a.size) := by
  by_cases h : n ≤ a.size
  · simp [loadArray, Nat.sub_eq_zero_of_le h, List.take_of_length_le, h]
  · rw [loadArray, List.take_left' (by rw [Memory.length_readBytes]; omega)]

theorem loadArray_eq {a : Buffer} {m : Memory} {n : Nat} (h : n ≤ a.size) : loadArray a m n s = m.readBytes 0 n := by
  have := take_loadArray a m n s
  rwa [List.take_of_length_le (by simpa using h), Nat.min_eq_left h] at this

theorem loadRx_eq {n : Nat} (h : n ≤ 180) : loadRx n s = s.rx.buf.readBytes 0 n := loadArray_eq (a := .rx) h

theorem loadTx_eq {n : Nat} (h : n ≤ 182) : loadTx n s = s.tx.buf.readBytes 0 n := loadArray_eq (a := .tx) h

theorem loadDd_eq {n : Nat} (h : n ≤ 177) : loadDd n s = s.dd.payload.readBytes 0 n := loadArray_eq (a := .dd) h

/-- Past the end of the array its own bytes come first. -/
theorem take_loadRx {n : Nat} (h : 180 ≤ n) : (loadRx n s).take 180 = s.rx.buf.readBytes 0 180 :=
  (take_loadArray .rx _ n s).trans (congrArg _ (Nat.min_eq_right h))

theorem take_loadTx {n : Nat} (h : 182 ≤ n) : (loadTx n s).take 182 = s.tx.buf.readBytes 0 182 :=
  (take_loadArray .tx _ n s).trans (congrArg _ (Nat.min_eq_right h))

theorem take_loadDd {n : Nat} (h : 177 ≤ n) : (loadDd n s).take 177 = s.dd.payload.readBytes 0 177 :=
  (take_loadArray .dd _ n s).trans (congrArg _ (Nat.min_eq_right h))

@[simp] theorem length_loadRx (n : Nat) (s : State) : (loadRx n s).length = n := length_loadArray _ _ _ _

@[simp] theorem length_loadTx (n : Nat) (s : State) : (loadTx n s).length = n := length_loadArray _ _ _ _

@[simp] theorem length_loadDd (n : Nat) (s : State) : (loadDd n s).length = n := length_loadArray _ _ _ _

theorem storeRx_in {i : Nat} (h : i < 180) :
    storeRx i b s = { s with rx := { s.rx with buf := s.rx.buf.write i b } } := if_pos h

theorem storeRx_out {i : Nat} (h : 180 ≤ i) : storeRx i b s = s := if_neg (Nat.not_lt.2 h)

/-! ### Transmit/ACK Controller -/

/-- The state after a retransmission (R164). -/
def resent (c : RetryCause) (now : Time) (s : State) : State :=
  { s with
    tx := { s.tx with retry := s.tx.retry + 1#8, sendTime := now }
    events := s.events ++ [.txBytes (loadTx s.tx.len.toNat s), .evRetransmit c] }

/-- The two ends of a step of the retry budget (R164). -/
theorem retryOrFail_cases (c : RetryCause) (now : Time) (s : State) :
    (s.tx.retry.toNat < s.cfg.maxRetries.toNat ∧ retryOrFail now c s = resent c now s) ∨
    (s.cfg.maxRetries.toNat ≤ s.tx.retry.toNat ∧ retryOrFail now c s =
      { s with tx := Outstanding.cleared, events := s.events ++ [.txDone (failStatus c)] }) := by
  unfold retryOrFail
  split
  · exact .inl ⟨‹_›, by simp [emit, send, resent]⟩
  · exact .inr ⟨by omega, by cases c <;> rfl⟩

/-! ### Duplicate Suppression -/

/-- What `SCREEN` compares (R190). -/
def matchesRecord (f : Frame) (s : State) : Prop :=
  s.dd.valid = true ∧ s.dd.cmd = f.command ∧ s.dd.plen.toNat = f.payload.length ∧ loadDd s.dd.plen.toNat s = f.payload

theorem sameFrame_iff : sameFrame f s = true ↔ matchesRecord f s := decide_eq_true_iff

/-- The state after a delivery (R191). -/
def delivered (f : Frame) (now : Time) (s : State) : State :=
  { s with
    dd := ⟨true, f.command, lenByte f.payload.length, Memory.writeBytes [] 0 (f.payload.take 177), now⟩
    events := s.events ++ [.deliver f, .txBytes [s.cfg.ack], .evFrameReceived] }

/-- A payload of a `Frame` (R13) is stored whole. -/
theorem delivered_dd (hf : f.payload.length ≤ 177) : (delivered f now s).dd =
    ⟨true, f.command, lenByte f.payload.length, Memory.writeBytes [] 0 f.payload, now⟩ := by
  rw [delivered, List.take_of_length_le hf]

/-- What a delivery stores of a payload of any length: its first 177 bytes, and `0x00` above (R191; log 8). -/
theorem read_delivered (f : Frame) (now : Time) (s : State) (a : Nat) : (delivered f now s).dd.payload.read a =
    if a < min f.payload.length 177 then f.payload.getD a 0#8 else 0#8 := by
  simp only [delivered, Memory.read_writeBytes, Memory.read_nil, Nat.zero_le, true_and, Nat.zero_add, Nat.sub_zero,
    List.length_take, Nat.min_comm 177]
  split
  · rename_i h
    rw [List.getD_eq_getElem?_getD, List.getElem?_take_of_lt (by omega), ← List.getD_eq_getElem?_getD]
  · rfl

/-- The state after a suppression (R192). -/
def suppressed (s : State) : State := { s with events := s.events ++ [.txBytes [s.cfg.ack], .evDupSuppressed] }

theorem screen_suppresses (h1 : matchesRecord f s) (h2 : s.fresh now = true) : screen f now s = suppressed s := by
  simp [screen, sameFrame_iff.2 h1, h2, suppress, emit, send, suppressed]

theorem screen_delivers (h : ¬ (matchesRecord f s ∧ s.fresh now = true)) : screen f now s = delivered f now s := by
  rw [screen, if_neg (by simpa only [Bool.and_eq_true, sameFrame_iff] using h)]
  simp [deliver, storeDd, emit, send, delivered, ddPayloadSize]

/-- The two ends of `SCREEN` (R190, R191, R192). -/
theorem screen_cases (f : Frame) (now : Time) (s : State) :
    (matchesRecord f s ∧ s.fresh now = true ∧ screen f now s = suppressed s) ∨
    (¬ (matchesRecord f s ∧ s.fresh now = true) ∧ screen f now s = delivered f now s) := by
  by_cases h : matchesRecord f s ∧ s.fresh now = true
  · exact .inl ⟨h.1, h.2, screen_suppresses h.1 h.2⟩
  · exact .inr ⟨h, screen_delivers h⟩

/-- What matches the record of a delivery: the same command and payload, whatever the kind (R190, R196). -/
theorem matchesRecord_delivered {g : Frame} (hf : f.payload.length ≤ 177) (h : t.dd = (delivered f now s).dd) :
    matchesRecord g t ↔ f.command = g.command ∧ f.payload = g.payload := by
  have hl : (lenByte f.payload.length).toNat = f.payload.length := lenByte_toNat (by omega)
  have hp : loadDd f.payload.length t = f.payload := by
    rw [loadDd_eq hf, h, delivered, List.take_of_length_le hf, Memory.readBytes_writeBytes]
  have hn : t.dd.plen.toNat = f.payload.length := by rw [h, delivered, hl]
  simp only [matchesRecord, hn, hp]
  simp only [h, delivered, true_and]
  exact ⟨fun h => ⟨h.1, h.2.2⟩, fun h => ⟨h.1, by rw [h.2], h.2⟩⟩

/-! ### Receive Assembler -/

/-- The pre-check and RXIDLE (R130, R143). -/
theorem rxTimeoutCheck_cases (now : Time) (s : State) :
    (s.byteDeadline now = true ∧
      rxTimeoutCheck now s = { s with rx := RxAssembly.idle, events := s.events ++ [.evRxTimeout] }) ∨
    (s.byteDeadline now = false ∧ rxTimeoutCheck now s = s) := by
  unfold rxTimeoutCheck
  split
  · exact .inl ⟨‹_›, rfl⟩
  · exact .inr ⟨Bool.eq_false_iff.2 ‹_›, rfl⟩

theorem rxTimeoutCheck_none (h : s.rx.state = .waitSof ∨ (now - s.rx.lastTime).toNat < s.byteTimeoutMs.toNat) :
    rxTimeoutCheck now s = s := by
  rcases rxTimeoutCheck_cases now s with ⟨hd, -⟩ | ⟨-, e⟩
  · obtain ⟨h1, h2⟩ := byteDeadline_iff.1 hd
    rcases h with h | h
    · exact absurd h h1
    · omega
  · exact e

theorem rxTimeoutCheck_fires (h1 : s.rx.state ≠ .waitSof) (h2 : s.byteTimeoutMs.toNat ≤ (now - s.rx.lastTime).toNat) :
    rxTimeoutCheck now s = { s with rx := RxAssembly.idle, events := s.events ++ [.evRxTimeout] } := by
  rcases rxTimeoutCheck_cases now s with ⟨-, e⟩ | ⟨hd, -⟩
  · exact e
  · rw [byteDeadline_iff.2 ⟨h1, h2⟩] at hd; cases hd

/-- The payload arm (R136): the byte goes where `storeRx` puts it, and the other registers move on. -/
theorem armPayload_eq (b : Byte) (now : Time) (s : State) : armPayload b now s =
    ({ s with rx := ⟨nextField (s.rx.remaining - 1#8), (storeRx s.rx.count.toNat b s).rx.buf, s.rx.count + 1#8,
      s.rx.remaining - 1#8, now⟩ }, false) := by
  rw [armPayload]
  by_cases h : s.rx.count.toNat < 180
  · rw [storeRx_in h]
  · rw [storeRx_out (Nat.not_lt.1 h)]

/-- Everything an arm of RXBYTE can do (R132 to R140, R144), with the events it emits. -/
inductive ArmCase (b : Byte) (now : Time) (s : State) : State → Bool → Prop
  | leadSof : s.rx.state = .waitSof → b = s.cfg.sof →
      ArmCase b now s { s with rx := { s.rx with state := .waitLength, lastTime := now } } false
  | stray (y : Sym) : s.rx.state = .waitSof → b ≠ s.cfg.sof → s.tx.valid = false →
      ArmCase b now s { s with events := s.events ++ [.evStray y] } false
  | acked : s.rx.state = .waitSof → b ≠ s.cfg.sof → s.tx.valid = true →
      ArmCase b now s { s with tx := Outstanding.cleared, events := s.events ++ [.txAcked, .txDone .success] } false
  | resent : s.rx.state = .waitSof → b ≠ s.cfg.sof → s.tx.valid = true → s.tx.retry.toNat < s.cfg.maxRetries.toNat →
      ArmCase b now s (resent .nak now s) false
  | naked : s.rx.state = .waitSof → b ≠ s.cfg.sof → s.tx.valid = true → s.cfg.maxRetries.toNat ≤ s.tx.retry.toNat →
      ArmCase b now s { s with tx := Outstanding.cleared, events := s.events ++ [.txDone .failNak] } false
  | cancelled : s.rx.state = .waitSof → b ≠ s.cfg.sof → s.tx.valid = true →
      ArmCase b now s { s with tx := Outstanding.cleared, events := s.events ++ [.txDone .failCancelled] } false
  | noise : s.rx.state = .waitSof → b ≠ s.cfg.sof → ArmCase b now s { s with events := s.events ++ [.evNoise b] } false
  | badLength : s.rx.state = .waitLength → legalLength b = false →
      ArmCase b now s { s with rx := RxAssembly.idle, events := s.events ++ [.evBadLength b] } true
  | length : s.rx.state = .waitLength → legalLength b = true →
      ArmCase b now s { s with rx := ⟨.waitKind, s.rx.buf.write 0 b, 1#8, b - 3#8, now⟩ } false
  | kind : s.rx.state = .waitKind →
      ArmCase b now s { s with rx := ⟨.waitCommand, s.rx.buf.write 1 b, 2#8, s.rx.remaining, now⟩ } false
  | command : s.rx.state = .waitCommand →
      ArmCase b now s { s with rx := ⟨nextField s.rx.remaining, s.rx.buf.write 2 b, 3#8, s.rx.remaining, now⟩ } false
  | payload : s.rx.state = .waitPayload →
      ArmCase b now s { s with rx := ⟨nextField (s.rx.remaining - 1#8), (storeRx s.rx.count.toNat b s).rx.buf,
        s.rx.count + 1#8, s.rx.remaining - 1#8, now⟩ } false
  | checksumFailed : s.rx.state = .waitChecksum →
      ArmCase b now s { s with
        rx := RxAssembly.idle
        events := s.events ++ [.evChecksumFailed, .txBytes [s.cfg.nak]] } true
  | badKind : s.rx.state = .waitChecksum → b = checksum (loadRx s.rx.count.toNat s) →
      kindOf s.cfg (s.rx.buf.read 1) = none →
      ArmCase b now s { s with
        rx := RxAssembly.idle, events := s.events ++ [.evBadKind (s.rx.buf.read 1)] } true
  | suppress (f : Frame) : s.rx.state = .waitChecksum → f.payload.length = s.rx.count.toNat - 3 →
      matchesRecord f s → s.fresh now = true →
      ArmCase b now s { suppressed s with rx := RxAssembly.idle } true
  | deliver (f : Frame) : s.rx.state = .waitChecksum → f.payload.length = s.rx.count.toNat - 3 →
      ¬ (matchesRecord f s ∧ s.fresh now = true) →
      ArmCase b now s { delivered f now s with rx := RxAssembly.idle } true

theorem rxArm_cases (b : Byte) (now : Time) (s : State) : ArmCase b now s (rxArm b now s).1 (rxArm b now s).2 := by
  unfold rxArm
  split
  · rename_i hs
    unfold armSof
    by_cases hb : b = s.cfg.sof
    · subst hb
      rw [classify_sof]; exact .leadSof hs rfl
    cases hc : classify s.cfg b <;> simp only
    · exact absurd ((classify_eq_leadSof _ _).1 hc) hb
    · unfold ctrlAck State.busy
      split
      · simp only [emit, txClear, List.append_assoc, List.cons_append, List.nil_append]
        exact .acked hs hb ‹_›
      · exact .stray .ack hs hb (Bool.eq_false_iff.2 ‹_›)
    · unfold ctrlNak State.busy
      split
      · rcases retryOrFail_cases .nak now s with ⟨h1, e⟩ | ⟨h1, e⟩ <;> rw [e]
        · exact .resent hs hb ‹_› h1
        · exact .naked hs hb ‹_› h1
      · exact .stray .nak hs hb (Bool.eq_false_iff.2 ‹_›)
    · unfold ctrlCan State.busy
      split
      · exact .cancelled hs hb ‹_›
      · exact .stray .can hs hb (Bool.eq_false_iff.2 ‹_›)
    · exact .noise hs hb
  · unfold armLength
    split
    · exact .length ‹_› ‹_›
    · exact .badLength ‹_› (Bool.eq_false_iff.2 ‹_›)
  · exact .kind ‹_›
  · exact .command ‹_›
  · rw [armPayload_eq]; exact .payload ‹_›
  · rename_i hs
    simp only [armChecksum]
    split
    · simp only [endChecksumFailed, emit, send, rxReset, List.append_assoc, List.cons_append, List.nil_append]
      exact .checksumFailed hs
    · rename_i hck
      split
      · exact .badKind hs (by simpa using hck) ‹_›
      · rename_i k _
        have hp : ((loadRx s.rx.count.toNat s).drop 3).length = s.rx.count.toNat - 3 := by simp
        rcases screen_cases ⟨k, s.rx.buf.read 2, (loadRx s.rx.count.toNat s).drop 3⟩ now (rxReset s) with
          ⟨hm, hf, e⟩ | ⟨hm, e⟩ <;> rw [e]
        · exact .suppress _ hs hp hm hf
        · exact .deliver _ hs hp hm

end Sys2Proof.Machine
end

