-- ==== Sys2Proof/Laws/Invariant.lean ====
section
/-! SUPPORT. The shared operations keep the invariants of the sub-blocks. -/

namespace Sys2Proof.Machine

variable {s t : State} {now : Time} {b : Byte} {term : Bool}

theorem RxAssembly.idle_inv : RxAssembly.idle.Inv := by
  constructor <;> simp [RxAssembly.idle, Memory.wf, Memory.wfFrom, Memory.below, RxState.pastLength]

theorem Outstanding.cleared_inv (cfg : Cfg) : Outstanding.cleared.Inv cfg := by
  constructor <;> simp [Outstanding.cleared, Memory.wf, Memory.wfFrom, Memory.below]

theorem DedupRecord.absent_inv : DedupRecord.absent.Inv := by
  constructor <;> simp [DedupRecord.absent, Memory.wf, Memory.wfFrom, Memory.below]

/-- One more retransmission keeps the invariant of the Outstanding Transmission. -/
theorem Outstanding.Inv.resent {cfg : Cfg} {o : Outstanding} (h : o.Inv cfg) (hv : o.valid = true)
    (hr : o.retry.toNat < cfg.maxRetries.toNat) (now : Time) :
    Outstanding.Inv cfg { o with retry := o.retry + 1#8, sendTime := now } := by
  refine ⟨h.bufWf, h.bufBelow, fun h' => ?_, h.lenMin, h.lenMax, ?_, h.encoded⟩
  · rw [hv] at h'; cases h'
  · have := cfg.maxRetries.isLt
    simp only [BitVec.toNat_add, BitVec.toNat_ofNat]
    omega

/-- A delivery keeps the invariant of the Dedup Record. -/
theorem DedupRecord.inv_of_payload (c : Byte) {p : List Byte} (hp : p.length ≤ 177) (now : Time) :
    DedupRecord.Inv ⟨true, c, lenByte p.length, Memory.writeBytes [] 0 (p.take 177), now⟩ := by
  rw [List.take_of_length_le hp]
  have hl := lenByte_toNat (show p.length < 256 by omega)
  refine ⟨Memory.wf_writeBytes rfl 0 p, ?_, fun h => (by cases h), ?_⟩
  rotate_left
  · show (lenByte p.length).toNat ≤ 177; omega
  show Memory.below (lenByte p.length).toNat _ = true
  rw [hl]
  exact Memory.below_writeBytes rfl 0 p (by omega)

theorem legalLength_iff : legalLength b = true ↔ 3 ≤ b.toNat ∧ b.toNat ≤ 180 := by
  simp only [legalLength, Bool.and_eq_true, decide_eq_true_eq]

/-- The Receive Assembly State after a legal length byte. -/
theorem RxAssembly.Inv.length_arm {r : RxAssembly} (h : r.Inv) (hs : r.state = .waitLength) (hb : legalLength b = true)
    (now : Time) : RxAssembly.Inv ⟨.waitKind, r.buf.write 0 b, 1#8, b - 3#8, now⟩ := by
  have hc := h.length hs
  have hb := legalLength_iff.1 hb
  have hsub : (b - 3#8).toNat = b.toNat - 3 := by simp; omega
  constructor <;> simp [RxState.pastLength, hsub] <;> try omega
  · exact Memory.wf_write h.bufWf 0 b
  · exact Memory.below_write (Memory.below_mono h.bufBelow (by simp [hc.1])) (by omega) b

/-- The Receive Assembly State after the kind byte. -/
theorem RxAssembly.Inv.kind_arm {r : RxAssembly} (h : r.Inv) (hs : r.state = .waitKind) (b : Byte) (now : Time) :
    RxAssembly.Inv ⟨.waitCommand, r.buf.write 1 b, 2#8, r.remaining, now⟩ := by
  have hc := h.kind hs
  have hp : r.state.pastLength = true := by rw [hs]; rfl
  have h1 := h.lengthLegal hp
  have h2 := h.noPayloadYet hp (by simp [hc])
  constructor <;> simp [RxState.pastLength] <;> try omega
  · exact Memory.wf_write h.bufWf 1 b
  · exact Memory.below_write (Memory.below_mono h.bufBelow (by simp [hc])) (by omega) b

theorem nextField_cases (r : Byte) :
    (r = 0#8 ∧ nextField r = .waitChecksum) ∨ (1 ≤ r.toNat ∧ nextField r = .waitPayload) := by
  unfold nextField
  split
  · exact .inl ⟨‹_›, rfl⟩
  · refine .inr ⟨?_, rfl⟩
    rename_i h
    have : r.toNat ≠ 0 := fun h' => h (BitVec.eq_of_toNat_eq (by simpa using h'))
    omega

/-- The Receive Assembly State after the command byte. -/
theorem RxAssembly.Inv.command_arm {r : RxAssembly} (h : r.Inv) (hs : r.state = .waitCommand) (b : Byte) (now : Time) :
    RxAssembly.Inv ⟨nextField r.remaining, r.buf.write 2 b, 3#8, r.remaining, now⟩ := by
  have hc := h.command hs
  have hp : r.state.pastLength = true := by rw [hs]; rfl
  have h1 := h.lengthLegal hp
  have h2 := h.noPayloadYet hp (by simp [hc])
  have hw := Memory.wf_write h.bufWf 2 b
  have hb : r.buf.below 3 = true := Memory.below_mono h.bufBelow (by simp [hc])
  have hb := Memory.below_write hb (show 2 < 3 by omega) b
  have h0 : (r.buf.write 2 b).read 0 = r.buf.read 0 := by simp
  rcases nextField_cases r.remaining with ⟨hz, hn⟩ | ⟨hz, hn⟩ <;> rw [hn]
  · refine ⟨hw, hb, nofun, nofun, nofun, nofun, fun _ => ?_, fun _ _ => ?_, fun _ _ => ?_, nofun, fun _ => ?_, ?_⟩ <;>
      simp only [h0]
    · exact h1
    · exact h2
    · simp only [BitVec.toNat_ofNat]; omega
    · exact ⟨by decide, hz⟩
    · decide
  · refine ⟨hw, hb, nofun, nofun, nofun, nofun, fun _ => ?_, fun _ _ => ?_, fun _ _ => ?_, fun _ => ?_, nofun, ?_⟩ <;>
      simp only [h0]
    · exact h1
    · exact h2
    · simp only [BitVec.toNat_ofNat]; omega
    · exact ⟨by decide, hz⟩
    · decide

/-- The Receive Assembly State after a payload byte. -/
theorem RxAssembly.Inv.payload_arm {r : RxAssembly} (h : r.Inv) (hs : r.state = .waitPayload) (b : Byte) (now : Time) :
    RxAssembly.Inv ⟨nextField (r.remaining - 1#8), r.buf.write r.count.toNat b, r.count + 1#8, r.remaining - 1#8, now⟩ := by
  have hp : r.state.pastLength = true := by rw [hs]; rfl
  have h1 := h.lengthLegal hp
  have h3 := h.payload hs
  have h2 := h.countUp hp h3.1
  have hc : (r.count + 1#8).toNat = r.count.toNat + 1 := by simp; omega
  have hr : (r.remaining - 1#8).toNat = r.remaining.toNat - 1 := by simp; omega
  have hw := Memory.wf_write h.bufWf r.count.toNat b
  have hb := Memory.below_write (Memory.below_mono h.bufBelow (Nat.le_succ _)) (Nat.lt_succ_self _) b
  have h0 : (r.buf.write r.count.toNat b).read 0 = r.buf.read 0 := by
    rw [Memory.read_write, if_neg (by omega)]
  rw [Nat.succ_eq_add_one, ← hc] at hb
  rcases nextField_cases (r.remaining - 1#8) with ⟨hz, hn⟩ | ⟨hz, hn⟩ <;> rw [hn]
  · have hz' := congrArg BitVec.toNat hz
    rw [hr] at hz'
    refine ⟨hw, hb, nofun, nofun, nofun, nofun, fun _ => ?_, fun _ h' => ?_, fun _ _ => ?_, nofun, fun _ => ?_, ?_⟩ <;>
      simp only [h0, hc, hr] at *
    · exact h1
    · omega
    · omega
    · exact ⟨by omega, hz⟩
    · omega
  · refine ⟨hw, hb, nofun, nofun, nofun, nofun, fun _ => ?_, fun _ h' => ?_, fun _ _ => ?_, fun _ => ?_, nofun, ?_⟩ <;>
      simp only [h0, hc, hr] at *
    · exact h1
    · omega
    · omega
    · omega
    · omega

/-- Every arm of RXBYTE keeps the invariant. -/
theorem ArmCase.inv (hc : ArmCase b now s t term) (h : s.Inv) : t.Inv := by
  obtain ⟨hl, hr, ht, hd⟩ := h
  cases hc with
  | leadSof hs hb =>
    refine ⟨hl, ?_, ht, hd⟩
    rw [hr.sof hs]
    constructor <;> simp [RxAssembly.idle, Memory.wf, Memory.wfFrom, Memory.below, RxState.pastLength]
  | stray y hs hb hv => exact ⟨hl, hr, ht, hd⟩
  | noise hs hb => exact ⟨hl, hr, ht, hd⟩
  | acked hs hb hv => exact ⟨hl, hr, Outstanding.cleared_inv _, hd⟩
  | naked hs hb hv hm => exact ⟨hl, hr, Outstanding.cleared_inv _, hd⟩
  | cancelled hs hb hv => exact ⟨hl, hr, Outstanding.cleared_inv _, hd⟩
  | resent hs hb hv hm => exact ⟨hl, hr, ht.resent hv hm now, hd⟩
  | badLength hs hb => exact ⟨hl, RxAssembly.idle_inv, ht, hd⟩
  | length hs hb => exact ⟨hl, hr.length_arm hs hb now, ht, hd⟩
  | kind hs => exact ⟨hl, hr.kind_arm hs b now, ht, hd⟩
  | command hs => exact ⟨hl, hr.command_arm hs b now, ht, hd⟩
  | payload hs =>
    have hp : s.rx.state.pastLength = true := by rw [hs]; rfl
    have h1 := hr.lengthLegal hp
    have h3 := hr.payload hs
    have h2 := hr.countUp hp h3.1
    rw [storeRx_in (by omega)]
    exact ⟨hl, hr.payload_arm hs b now, ht, hd⟩
  | checksumFailed hs => exact ⟨hl, RxAssembly.idle_inv, ht, hd⟩
  | badKind hs hck hk => exact ⟨hl, RxAssembly.idle_inv, ht, hd⟩
  | suppress f hs hf hm hw => exact ⟨hl, RxAssembly.idle_inv, ht, hd⟩
  | deliver f hs hf hm =>
    exact ⟨hl, RxAssembly.idle_inv, ht, DedupRecord.inv_of_payload f.command (by have := hr.countMax; omega) now⟩

/-- The pre-check keeps the invariant. -/
theorem rxTimeoutCheck_inv (h : s.Inv) (now : Time) : (rxTimeoutCheck now s).Inv := by
  rcases rxTimeoutCheck_cases now s with ⟨-, e⟩ | ⟨-, e⟩ <;> rw [e]
  · exact ⟨h.cfgLegal, RxAssembly.idle_inv, h.tx, h.dd⟩
  · exact h

/-- RXBYTE keeps the invariant. -/
theorem rxByte_inv (h : s.Inv) (b : Byte) (now : Time) : (rxByte b now s).1.Inv :=
  (rxArm_cases b now _).inv (rxTimeoutCheck_inv h now)

/-- The environment's fields are no part of the invariant. -/
theorem State.Inv.congr (h : s.Inv) (hc : t.cfg = s.cfg) (hr : t.rx = s.rx) (ht : t.tx = s.tx) (hd : t.dd = s.dd) :
    t.Inv := by
  obtain ⟨h1, h2, h3, h4⟩ := h
  exact ⟨hc ▸ h1, hr ▸ h2, by rw [hc, ht]; exact h3, hd ▸ h4⟩

end Sys2Proof.Machine
end

