-- ==== Sys2Proof/Laws/Decode.lean ====
section
/-! SUPPORT. What the decoder reads: a unit's bytes after `SOF`, and that every decoded operation is well formed. -/

namespace Sys2Proof

/-- The bytes after `SOF` of a well-formed unit read back as the unit, whatever follows them; a stalled unit only at the end
(R81, R82). -/
theorem decodeTail_encodeTail {u : DataUnit} (h : u.wellFormed = true) {rest : List Byte}
    (hs : (∀ t, u ≠ .stalled t) ∨ rest = []) : decodeTail (encodeTail u ++ rest) = (u, rest) := by
  cases u with
  | frame k c p x =>
    have hp : p.length ≤ 177 := of_decide_eq_true h
    have hl : legalLength (lenByte (p.length + 3)) = true := by
      rw [Machine.legalLength_iff, lenByte_toNat (by omega)]; omega
    simp only [encodeTail, List.cons_append, List.nil_append, decodeTail, hl, if_true,
      lenByte_toNat (show p.length + 3 < 256 by omega)]
    rw [if_pos (by simp)]
    simp [byteAt]
  | badLength l =>
    have hl : legalLength l = false := by simpa [DataUnit.wellFormed] using h
    simp [encodeTail, decodeTail, hl]
  | stalled t =>
    rcases hs with hs | rfl
    · exact absurd rfl (hs t)
    cases t with
    | nil => rfl
    | cons l r =>
      simp only [DataUnit.wellFormed, Bool.and_eq_true, decide_eq_true_eq] at h
      simp only [encodeTail, List.append_nil, decodeTail, h.1, if_true]
      rw [if_neg (by omega)]

/-- What `decodeTail` reads is a well-formed unit. -/
theorem decodeTail_wellFormed (bs : List Byte) : (decodeTail bs).1.wellFormed = true := by
  cases bs with
  | nil => rfl
  | cons l r =>
    simp only [decodeTail]
    split
    · rename_i h
      have h' := Machine.legalLength_iff.1 h
      split
      · simp only [DataUnit.wellFormed, decide_eq_true_eq, List.length_drop, List.length_take, maxPayload]; omega
      · simp only [DataUnit.wellFormed, h, Bool.true_and, decide_eq_true_eq]; omega
    · simp_all [DataUnit.wellFormed]

/-- Every decoded operation is well formed. -/
theorem decode_wellFormed {cfg : Cfg} {c : Code} {i : Instr} {more : Option Code} (h : decode cfg c = .ok (i, more)) :
    i.wellFormed cfg = true := by
  cases c with
  | wire bytes now =>
    cases bytes with
    | nil => cases h
    | cons b bs =>
      rcases classify_cases cfg b with ⟨hc, -⟩ | ⟨hc, -⟩ | ⟨hc, -⟩ | ⟨hc, -⟩ | ⟨hc, -⟩ <;>
        simp only [decode, decodeWire, hc] at h <;> cases h
      · exact decodeTail_wellFormed bs
      · rfl
      · rfl
      · rfl
      · simp only [Instr.wellFormed, hc, beq_self_eq_true]
  | host p =>
    simp only [decode, decodeHost] at h
    repeat' split at h
    all_goals cases h
    case isTrue.refl => rfl
    case isFalse.isTrue.isFalse.refl =>
      have := p.plen.isLt
      simp only [Instr.wellFormed, decide_eq_true_eq, List.length_take]; omega
    all_goals rfl
  | resetInput => cases h; rfl
  | named j =>
    simp only [decode, decodeNamed] at h
    repeat' split at h
    all_goals cases h
    assumption

end Sys2Proof
end

