-- ==== Sys2Proof/Laws/Environment.lean ====
section
/-! SUPPORT. The operations on a byte, on a deadline and on a frame neither read nor write the queue, the last result and the
requests: with other ones they do the same. -/

namespace Sys2Proof.Machine

/-- The state with another queue, another last result and other requests. -/
def State.withEnv (s : State) (q : List Byte) (r : Result) (rs : List Request) : State :=
  { s with rxq := q, result := r, requests := rs }

variable (q : List Byte) (r : Result) (rs : List Request) (s : State) (now : Time) (b : Byte) (f : Frame)

@[simp] theorem withEnv_self : s.withEnv s.rxq s.result s.requests = s := rfl

/-- The environment put beside a state and a flag. -/
def pairEnv (x : State × Bool) : State × Bool := (x.1.withEnv q r rs, x.2)

theorem rxTimeoutCheck_withEnv : rxTimeoutCheck now (s.withEnv q r rs) = (rxTimeoutCheck now s).withEnv q r rs := by
  unfold rxTimeoutCheck
  change (if s.byteDeadline now = true then _ else _) = _
  split <;> rfl

theorem retryOrFail_withEnv (c : RetryCause) :
    retryOrFail now c (s.withEnv q r rs) = (retryOrFail now c s).withEnv q r rs := by
  unfold retryOrFail
  by_cases h : s.tx.retry.toNat < s.cfg.maxRetries.toNat
  · rw [if_pos h, if_pos (show (s.withEnv q r rs).tx.retry.toNat < (s.withEnv q r rs).cfg.maxRetries.toNat from h)]; rfl
  · rw [if_neg h, if_neg (show ¬ (s.withEnv q r rs).tx.retry.toNat < (s.withEnv q r rs).cfg.maxRetries.toNat from h)]
    cases c <;> rfl

theorem ctrlAck_withEnv : ctrlAck now (s.withEnv q r rs) = (ctrlAck now s).withEnv q r rs := by
  unfold ctrlAck
  change (if s.busy = true then _ else _) = _
  split <;> rfl

theorem ctrlCan_withEnv : ctrlCan now (s.withEnv q r rs) = (ctrlCan now s).withEnv q r rs := by
  unfold ctrlCan
  change (if s.busy = true then _ else _) = _
  split <;> rfl

theorem ctrlNak_withEnv : ctrlNak now (s.withEnv q r rs) = (ctrlNak now s).withEnv q r rs := by
  unfold ctrlNak
  change (if s.busy = true then _ else _) = _
  split
  · exact retryOrFail_withEnv q r rs s now .nak
  · rfl

theorem txchk_withEnv : txchk now (s.withEnv q r rs) = (txchk now s).withEnv q r rs := by
  unfold txchk
  change (if s.ackDeadline now = true then _ else _) = _
  split
  · exact retryOrFail_withEnv q r rs s now .timeout
  · rfl

theorem ddchk_withEnv : ddchk now (s.withEnv q r rs) = (ddchk now s).withEnv q r rs := by
  unfold ddchk
  change (if s.dedupEnded now = true then _ else _) = _
  split <;> rfl

theorem screen_withEnv : screen f now (s.withEnv q r rs) = (screen f now s).withEnv q r rs := by
  unfold screen
  change (if (sameFrame f s && s.fresh now) = true then _ else _) = _
  split <;> rfl

theorem armSof_withEnv : armSof b now (s.withEnv q r rs) = pairEnv q r rs (armSof b now s) := by
  have hc : classify (s.withEnv q r rs).cfg b = classify s.cfg b := rfl
  unfold armSof
  rw [hc]
  cases classify s.cfg b
  · rfl
  · simp only [ctrlAck_withEnv]; rfl
  · simp only [ctrlNak_withEnv]; rfl
  · simp only [ctrlCan_withEnv]; rfl
  · rfl

theorem armLength_withEnv : armLength b now (s.withEnv q r rs) = pairEnv q r rs (armLength b now s) := by
  unfold armLength
  split <;> rfl

theorem armPayload_withEnv : armPayload b now (s.withEnv q r rs) = pairEnv q r rs (armPayload b now s) := by
  have hx : (s.withEnv q r rs).rx = s.rx := rfl
  unfold armPayload storeRx
  rw [hx]
  split <;> rfl

theorem armChecksum_withEnv : armChecksum b now (s.withEnv q r rs) = pairEnv q r rs (armChecksum b now s) := by
  have hx : (s.withEnv q r rs).rx = s.rx := rfl
  have hc : (s.withEnv q r rs).cfg = s.cfg := rfl
  have hl : ∀ n, loadRx n (s.withEnv q r rs) = loadRx n s := fun _ => rfl
  simp only [armChecksum, hx, hc, hl]
  split
  · rfl
  · split
    · rfl
    · rw [show rxReset (s.withEnv q r rs) = (rxReset s).withEnv q r rs from rfl, screen_withEnv]; rfl

theorem rxArm_withEnv : rxArm b now (s.withEnv q r rs) = pairEnv q r rs (rxArm b now s) := by
  unfold rxArm
  rw [show (s.withEnv q r rs).rx.state = s.rx.state from rfl]
  cases s.rx.state
  · exact armSof_withEnv q r rs s now b
  · exact armLength_withEnv q r rs s now b
  · rfl
  · rfl
  · exact armPayload_withEnv q r rs s now b
  · exact armChecksum_withEnv q r rs s now b

/-- RXBYTE with another environment does the same. -/
theorem rxByte_withEnv : rxByte b now (s.withEnv q r rs) = pairEnv q r rs (rxByte b now s) := by
  unfold rxByte
  rw [rxTimeoutCheck_withEnv, rxArm_withEnv]

/-- A list of bytes with another environment does the same. -/
theorem rxBytes_withEnv (bs : List Byte) (x : State × Bool) :
    rxBytes now bs (pairEnv q r rs x) = pairEnv q r rs (rxBytes now bs x) := by
  induction bs generalizing x with
  | nil => rfl
  | cons b bs ih =>
    simp only [rxBytes]
    rw [show (pairEnv q r rs x).1 = x.1.withEnv q r rs from rfl, rxByte_withEnv, ih]

/-- RXBYTE leaves the environment as it is. -/
theorem rxByte_env : (rxByte b now s).1.rxq = s.rxq ∧ (rxByte b now s).1.result = s.result ∧
    (rxByte b now s).1.requests = s.requests := by
  have := rxByte_withEnv s.rxq s.result s.requests s now b
  rw [withEnv_self] at this
  rw [this]
  exact ⟨rfl, rfl, rfl⟩

end Sys2Proof.Machine
end

