-- ==== Sys2Proof/Laws/Effects.lean ====
section
/-! SUPPORT. What the operations are made of: a list of elementary effects. A property of a run of an operation is proved for each
effect once. -/

namespace Sys2Proof.Machine

variable {s t u : State} {now : Time} {b : Byte} {f : Frame} {term : Bool}

/-- One elementary effect of the receive side, of a deadline, of a control symbol or of a suppressed frame, with the events it
emits. TRANSMIT, a delivery by SCREEN, the accessors and RESET are not among them. -/
inductive Effect (s : State) : State → Prop
  | arm {b : Byte} {now : Time} {t : State} {term : Bool} : ArmCase b now s t term → Effect s t
  | rxTimeout {now : Time} : s.byteDeadline now = true →
      Effect s { s with rx := RxAssembly.idle, events := s.events ++ [.evRxTimeout] }
  | recordEnd {now : Time} : s.dedupEnded now = true → Effect s { s with dd := DedupRecord.absent }
  | stray (y : Sym) : s.tx.valid = false → Effect s { s with events := s.events ++ [.evStray y] }
  | acked : s.tx.valid = true →
      Effect s { s with tx := Outstanding.cleared, events := s.events ++ [.txAcked, .txDone .success] }
  | cancelled : s.tx.valid = true →
      Effect s { s with tx := Outstanding.cleared, events := s.events ++ [.txDone .failCancelled] }
  | resent (c : RetryCause) (now : Time) : s.tx.valid = true → s.tx.retry.toNat < s.cfg.maxRetries.toNat →
      Effect s (resent c now s)
  | failed (c : RetryCause) : s.tx.valid = true → s.cfg.maxRetries.toNat ≤ s.tx.retry.toNat →
      Effect s { s with tx := Outstanding.cleared, events := s.events ++ [.txDone (failStatus c)] }
  | suppressed (f : Frame) (now : Time) : matchesRecord f s → s.fresh now = true → Effect s (suppressed s)
  | popped (q : List Byte) : q <:+ s.rxq → Effect s { s with rxq := q }

/-- A list of effects. -/
abbrev Effects : State → State → Prop := Relation.ReflTransGen Effect

theorem Effects.one (h : Effect s t) : Effects s t := .single h

/-- Every effect keeps the invariant. -/
theorem Effect.inv (he : Effect s t) (h : s.Inv) : t.Inv := by
  cases he with
  | arm hc => exact hc.inv h
  | rxTimeout _ => exact ⟨h.cfgLegal, RxAssembly.idle_inv, h.tx, h.dd⟩
  | recordEnd _ => exact ⟨h.cfgLegal, h.rx, h.tx, DedupRecord.absent_inv⟩
  | stray _ _ => exact ⟨h.cfgLegal, h.rx, h.tx, h.dd⟩
  | acked _ => exact ⟨h.cfgLegal, h.rx, Outstanding.cleared_inv _, h.dd⟩
  | cancelled _ => exact ⟨h.cfgLegal, h.rx, Outstanding.cleared_inv _, h.dd⟩
  | resent c now hv hr => exact ⟨h.cfgLegal, h.rx, h.tx.resent hv hr now, h.dd⟩
  | failed c _ _ => exact ⟨h.cfgLegal, h.rx, Outstanding.cleared_inv _, h.dd⟩
  | suppressed f now _ _ => exact ⟨h.cfgLegal, h.rx, h.tx, h.dd⟩
  | popped q _ => exact ⟨h.cfgLegal, h.rx, h.tx, h.dd⟩

theorem Effects.inv (he : Effects s t) (h : s.Inv) : t.Inv := by
  induction he with
  | refl => exact h
  | tail _ hs ih => exact hs.inv ih

/-- An effect only adds events. -/
theorem Effect.events (he : Effect s t) : ∃ es, t.events = s.events ++ es := by
  cases he with
  | arm hc => cases hc <;> first | exact ⟨_, rfl⟩ | exact ⟨[], (List.append_nil _).symm⟩
  | _ => first | exact ⟨_, rfl⟩ | exact ⟨[], (List.append_nil _).symm⟩

/-- A relation between two states and the events between them that every effect has, holds of a list of effects if it can be
chained. -/
theorem Effects.lift (P : State → State → List Event → Prop) (refl : ∀ s, P s s [])
    (trans : ∀ s t u es es', P s t es → P t u es' → P s u (es ++ es'))
    (one : ∀ s t, s.Inv → Effect s t → ∃ es, t.events = s.events ++ es ∧ P s t es) (he : Effects s t) (h : s.Inv) :
    ∃ es, t.events = s.events ++ es ∧ P s t es := by
  induction he with
  | refl => exact ⟨[], (List.append_nil _).symm, refl s⟩
  | tail h1 h2 ih =>
    obtain ⟨a, ha, hp⟩ := ih
    obtain ⟨b, hb, hq⟩ := one _ _ (Effects.inv h1 h) h2
    exact ⟨a ++ b, by rw [hb, ha, List.append_assoc], trans _ _ _ _ _ hp hq⟩

/-- A list of effects only adds events. -/
theorem Effects.events (he : Effects s t) : ∃ es, t.events = s.events ++ es := by
  induction he with
  | refl => exact ⟨[], (List.append_nil _).symm⟩
  | tail _ h ih =>
    obtain ⟨a, ha⟩ := ih
    obtain ⟨b, hb⟩ := h.events
    exact ⟨a ++ b, by rw [hb, ha, List.append_assoc]⟩

theorem rxTimeoutCheck_effects (now : Time) (s : State) : Effects s (rxTimeoutCheck now s) := by
  rcases rxTimeoutCheck_cases now s with ⟨h, e⟩ | ⟨-, e⟩ <;> rw [e]
  exact .one (.rxTimeout h)

theorem rxByte_effects (b : Byte) (now : Time) (s : State) : Effects s (rxByte b now s).1 :=
  (rxTimeoutCheck_effects now s).tail (.arm (rxArm_cases b now _))

theorem rxBytes_effects (now : Time) (bs : List Byte) (r : State × Bool) : Effects r.1 (rxBytes now bs r).1 := by
  induction bs generalizing r with
  | nil => exact .refl
  | cons b bs ih => exact (rxByte_effects b now r.1).trans (ih _)

theorem retryOrFail_effects (c : RetryCause) (now : Time) (hv : s.tx.valid = true) : Effects s (retryOrFail now c s) := by
  rcases retryOrFail_cases c now s with ⟨h, e⟩ | ⟨h, e⟩ <;> rw [e]
  · exact .one (.resent c now hv h)
  · exact .one (.failed c hv h)

theorem ctrlAck_effects (now : Time) (s : State) : Effects s (ctrlAck now s) := by
  unfold ctrlAck State.busy
  split
  · simp only [emit, txClear, List.append_assoc, List.cons_append, List.nil_append]
    exact .one (.acked ‹_›)
  · exact .one (.stray .ack (Bool.eq_false_iff.2 ‹_›))

theorem ctrlCan_effects (now : Time) (s : State) : Effects s (ctrlCan now s) := by
  unfold ctrlCan State.busy
  split
  · exact .one (.cancelled ‹_›)
  · exact .one (.stray .can (Bool.eq_false_iff.2 ‹_›))

theorem ctrlNak_effects (now : Time) (s : State) : Effects s (ctrlNak now s) := by
  unfold ctrlNak State.busy
  split
  · exact retryOrFail_effects .nak now ‹_›
  · exact .one (.stray .nak (Bool.eq_false_iff.2 ‹_›))

theorem txchk_effects (now : Time) (s : State) : Effects s (txchk now s) := by
  unfold txchk
  split
  · exact retryOrFail_effects .timeout now (ackDeadline_iff.1 ‹_›).1
  · exact .refl

theorem ddchk_effects (now : Time) (s : State) : Effects s (ddchk now s) := by
  unfold ddchk
  split
  · exact .one (.recordEnd ‹_›)
  · exact .refl

theorem feedLoop_effects (now : Time) {q : List Byte} (hq : q <:+ s.rxq) : Effects s (feedLoop now q s) := by
  induction q generalizing s with
  | nil => exact .one (.popped [] hq)
  | cons b q ih =>
    have h1 : Effects s (rxByte b now { s with rxq := q }).1 :=
      .head (.popped q ((List.suffix_cons b q).trans hq)) (rxByte_effects b now _)
    simp only [feedLoop]
    split
    · exact h1
    · exact h1.trans (ih (by rw [(rxByte_env _ now b).1]))

theorem pollSteps_effects (now : Time) (s : State) : Effects s (pollSteps now s) :=
  ((ddchk_effects now s).trans (feedLoop_effects now List.suffix_rfl)).trans
    ((rxTimeoutCheck_effects now _).trans (txchk_effects now _))

end Sys2Proof.Machine
end

