-- ==== Sys2Proof/Laws/Exec.lean ====
section
/-! SUPPORT. Everything an operation can do when it completes, and everything a step can do. -/

namespace Sys2Proof.Machine

variable {s t : State} {i : Instr} {now : Time}

/-- The state after an accepted TRANSMIT of the bytes `bs` (R160). -/
def accepted (bs : List Byte) (now : Time) (s : State) : State :=
  { s with
    tx := ⟨true, s.tx.buf.writeBytes 0 bs, lenByte bs.length, 0#8, now⟩
    events := s.events ++ [.txBytes bs] }

/-- The three ends of TRANSMIT (R160). -/
theorem execTransmit_cases (c : Byte) (k : Kind) (p : List Byte) (now : Time) (s : State) :
    (s.tx.valid = true ∧ execTransmit c k p now s = .next { s with result := .transmit .busy }) ∨
    (s.tx.valid = false ∧ 177 < p.length ∧ execTransmit c k p now s = .next { s with result := .transmit .payloadTooLarge }) ∨
    (s.tx.valid = false ∧ p.length ≤ 177 ∧ execTransmit c k p now s =
      .next { accepted (frameBytes s.cfg c k p) now s with result := .transmit .accepted }) := by
  unfold execTransmit State.busy
  split
  · exact .inl ⟨‹_›, rfl⟩
  · have hv := Bool.eq_false_iff.2 ‹_›
    by_cases hp : 177 < p.length
    · rw [show encodeFrame s.cfg c k p = .payloadTooLarge from if_pos hp]
      exact .inr (.inl ⟨hv, hp, rfl⟩)
    · have hl : (frameBytes s.cfg c k p).length ≤ txBufSize := by
        rw [length_frameBytes]; exact Nat.add_le_add_right (Nat.not_lt.1 hp) 5
      rw [show encodeFrame s.cfg c k p = .bytes (frameBytes s.cfg c k p) from if_neg hp]
      refine .inr (.inr ⟨hv, Nat.not_lt.1 hp, ?_⟩)
      simp only [acceptTransmit, storeTx, List.take_of_length_le hl]
      rfl

/-- The state after RESET (R260). -/
def afterReset (s : State) : State :=
  { s with
    ackTimeoutMs := s.cfg.ackTimeoutReset, byteTimeoutMs := s.cfg.byteTimeoutReset
    rx := RxAssembly.idle, tx := Outstanding.cleared, dd := DedupRecord.absent }

/-- Everything an operation can do when it completes. -/
inductive ExecCase (s : State) : Instr → State → Prop
  | effects {i : Instr} {u : State} (r : Result) : Effects s u → r ≠ .transmit .accepted →
      ((∀ now, i ≠ .poll now) → u.rxq = s.rxq) → ExecCase s i { u with result := r }
  | delivered (f : Frame) (now : Time) : ¬ (matchesRecord f s ∧ s.fresh now = true) →
      ExecCase s (.screen f now) { delivered f now s with result := .none }
  | accepted (c : Byte) (k : Kind) (p : List Byte) (now : Time) : s.tx.valid = false → p.length ≤ 177 →
      ExecCase s (.transmit c k p now)
        { accepted (frameBytes s.cfg c k p) now s with result := .transmit .accepted }
  | setAck (v : Millis) : ExecCase s (.setAckTimeout v) { s with ackTimeoutMs := v, result := .none }
  | setByte (v : Millis) : ExecCase s (.setByteTimeout v) { s with byteTimeoutMs := v, result := .none }
  | reset : ExecCase s .reset { afterReset s with result := .none }

theorem ctrlAck_rxq (now : Time) (s : State) : (ctrlAck now s).rxq = s.rxq := by unfold ctrlAck; split <;> rfl
theorem ctrlCan_rxq (now : Time) (s : State) : (ctrlCan now s).rxq = s.rxq := by unfold ctrlCan; split <;> rfl
theorem ddchk_rxq (now : Time) (s : State) : (ddchk now s).rxq = s.rxq := by unfold ddchk; split <;> rfl
theorem rxTimeoutCheck_rxq (now : Time) (s : State) : (rxTimeoutCheck now s).rxq = s.rxq := by
  unfold rxTimeoutCheck; split <;> rfl

theorem retryOrFail_rxq (c : RetryCause) (now : Time) (s : State) : (retryOrFail now c s).rxq = s.rxq := by
  rcases retryOrFail_cases c now s with ⟨-, e⟩ | ⟨-, e⟩ <;> simp only [e, resent]

theorem ctrlNak_rxq (now : Time) (s : State) : (ctrlNak now s).rxq = s.rxq := by
  unfold ctrlNak; split
  · exact retryOrFail_rxq _ _ _
  · rfl

theorem txchk_rxq (now : Time) (s : State) : (txchk now s).rxq = s.rxq := by
  unfold txchk; split
  · exact retryOrFail_rxq _ _ _
  · rfl

theorem rxBytes_rxq (now : Time) (bs : List Byte) (r : State × Bool) : (rxBytes now bs r).1.rxq = r.1.rxq := by
  induction bs generalizing r with
  | nil => rfl
  | cons b bs ih => rw [rxBytes, ih]; exact (rxByte_env _ now b).1

theorem exec_cases (h : exec i s = .next t) : ExecCase s i t := by
  cases i with
  | data unit now => cases h; exact .effects _ (rxBytes_effects now _ (s, false)) nofun fun _ => rxBytes_rxq now _ (s, false)
  | ack | nak | can | noise | rxbyte => cases h; exact .effects _ (rxByte_effects _ _ s) nofun fun _ => (rxByte_env s _ _).1
  | poll now => cases h; exact .effects _ (pollSteps_effects now s) nofun fun hn => absurd rfl (hn now)
  | transmit c k p now =>
    rcases execTransmit_cases c k p now s with ⟨-, e⟩ | ⟨-, -, e⟩ | ⟨hv, hp, e⟩ <;> cases e.symm.trans h
    · exact .effects _ .refl nofun fun _ => rfl
    · exact .effects _ .refl nofun fun _ => rfl
    · exact .accepted c k p now hv hp
  | setAckTimeout v => cases h; exact .setAck v
  | setByteTimeout v => cases h; exact .setByte v
  | reset => cases h; exact .reset
  | getAckTimeout | getByteTimeout | reservedOp6 | reservedOp7 | checksum | encode | decode | classify =>
    cases h; exact .effects _ .refl nofun fun _ => rfl
  | rxidle now => cases h; exact .effects _ (rxTimeoutCheck_effects now s) nofun fun _ => rxTimeoutCheck_rxq now s
  | ctrlAck now => cases h; exact .effects _ (ctrlAck_effects now s) nofun fun _ => ctrlAck_rxq now s
  | ctrlCan now => cases h; exact .effects _ (ctrlCan_effects now s) nofun fun _ => ctrlCan_rxq now s
  | ddchk now => cases h; exact .effects _ (ddchk_effects now s) nofun fun _ => ddchk_rxq now s
  | ctrlNak now => cases h; exact .effects _ (ctrlNak_effects now s) nofun fun _ => ctrlNak_rxq now s
  | txchk now => cases h; exact .effects _ (txchk_effects now s) nofun fun _ => txchk_rxq now s
  | screen f now =>
    cases h
    rcases screen_cases f now s with ⟨h1, h2, e⟩ | ⟨hd, e⟩ <;> rw [e]
    · exact .effects _ (.one (.suppressed f now h1 h2)) nofun fun _ => rfl
    · exact .delivered f now hd

/-- A POLL with an empty queue and an idle assembler only runs the two timers (R200). -/
theorem pollSteps_silent (hq : s.rxq = []) (hs : s.rx.state = .waitSof) :
    pollSteps now s = txchk now (ddchk now s) := by
  have h1 : (ddchk now s).rxq = [] := by rw [ddchk_rxq, hq]
  have h2 : (ddchk now s).rx.state = .waitSof := by unfold ddchk; split <;> exact hs
  have e : ({ ddchk now s with rxq := [] } : State) = ddchk now s := by rw [← h1]
  simp only [pollSteps, h1, feedLoop, e, rxTimeoutCheck_none (.inl h2)]

/-- An encoded frame put in the transmit buffer meets the invariant of the Outstanding Transmission. -/
theorem Outstanding.inv_of_frame {cfg : Cfg} (hl : cfg.legal = true) {o : Outstanding} (h : o.Inv cfg)
    (hv : o.valid = false) (c : Byte) (k : Kind) {p : List Byte} (hp : p.length ≤ 177) (now : Time) :
    Outstanding.Inv cfg ⟨true, o.buf.writeBytes 0 (frameBytes cfg c k p), lenByte (frameBytes cfg c k p).length, 0#8,
      now⟩ := by
  have hn := length_frameBytes cfg c k p
  have he : (lenByte (frameBytes cfg c k p).length).toNat = (frameBytes cfg c k p).length :=
    lenByte_toNat (by omega)
  have hb : o.buf = [] := by rw [h.none hv]; rfl
  refine ⟨Memory.wf_writeBytes h.bufWf 0 _, ?_, nofun, fun _ => ?_, ?_, ?_, fun _ => ?_⟩
  · rw [he, hb]
    exact Memory.below_writeBytes rfl 0 _ (by omega)
  · rw [he]; omega
  · rw [he]; omega
  · exact Nat.zero_le _
  · rw [he, Memory.readBytes_writeBytes, decodeFrame_frameBytes (legal_kinds hl) c k p hp]; rfl

/-- Every well-formed operation keeps the invariant. -/
theorem ExecCase.inv (hc : ExecCase s i t) (h : s.Inv) (hw : i.wellFormed s.cfg = true) : t.Inv := by
  cases hc with
  | effects r he _ _ => exact (he.inv h).congr rfl rfl rfl rfl
  | delivered f now _ => exact ⟨h.cfgLegal, h.rx, h.tx, DedupRecord.inv_of_payload f.command (of_decide_eq_true hw) now⟩
  | accepted c k p now hv hp =>
    exact ⟨h.cfgLegal, h.rx, Outstanding.inv_of_frame h.cfgLegal h.tx hv c k hp now, h.dd⟩
  | setAck v => exact h.congr rfl rfl rfl rfl
  | setByte v => exact h.congr rfl rfl rfl rfl
  | reset => exact ⟨h.cfgLegal, RxAssembly.idle_inv, Outstanding.cleared_inv _, DedupRecord.absent_inv⟩

/-- Every operation is total (R222): only `step` stops. -/
theorem exec_total (i : Instr) (s : State) : ∃ t, exec i s = .next t := by
  cases i with
  | transmit c k p now =>
    rcases execTransmit_cases c k p now s with ⟨-, e⟩ | ⟨-, -, e⟩ | ⟨-, -, e⟩ <;> exact ⟨_, e⟩
  | _ => exact ⟨_, rfl⟩

/-- Everything a step can do when it goes on. -/
theorem step_cases (h : step s = .next t) :
    s.cfg.legal = true ∧
      ((s.requests = [] ∧ t = s) ∨
        (∃ bs rest, s.requests = .arrive bs :: rest ∧ t = { s with rxq := s.rxq ++ bs, requests := rest }) ∨
        ∃ c rest i more, s.requests = .issue c :: rest ∧ decode s.cfg c = .ok (i, more) ∧ issuable i = true ∧
          exec i (State.putBack more { s with requests := rest }) = .next t) := by
  unfold step State.nextRequest at h
  split at h
  · refine ⟨‹_›, ?_⟩
    cases hr : s.requests with
    | nil => simp only [hr] at h; cases h; exact .inl ⟨rfl, rfl⟩
    | cons q rest =>
      simp only [hr] at h
      cases q with
      | arrive bs => cases h; exact .inr (.inl ⟨bs, rest, rfl, rfl⟩)
      | issue c =>
        simp only [] at h
        cases hd : decode s.cfg c with
        | error e => simp only [hd] at h; cases h
        | ok r =>
          simp only [hd] at h
          split at h
          · exact .inr (.inr ⟨c, rest, r.1, r.2, rfl, hd, ‹_›, h⟩)
          · cases h
  · cases h

end Sys2Proof.Machine
end

