-- ==== Sys2Proof/Laws/PerInstr.lean ====
section
/-! SUPPORT. A statement about every instruction as syntax, proved once for each constructor: where its encoding is presented. -/

namespace Sys2Proof.Laws.PortOfRow

/-- An instruction's encoding is presented where its row's `format` says (R80, R88, R95, R99): a DATA row on the wire led by
`SOF`, a CTRL row on the wire as one byte, a HOST row on the host command port, RESET on the reset input, an internal row by
its name. -/
def Statement (i : Instr) : Prop :=
  ∀ cfg : Cfg, match i.format with
    | .data => ∃ bs now, encode cfg i = .wire (cfg.sof :: bs) now
    | .ctrl => ∃ b now, encode cfg i = .wire [b] now
    | .host => ∃ p, encode cfg i = .host p
    | .internal => encode cfg i = .named i
    | .resetInput => encode cfg i = .resetInput

theorem data (unit : DataUnit) (now : Time) : Statement (.data unit now) := fun _ => ⟨_, _, rfl⟩
theorem ack (now : Time) : Statement (.ack now) := fun _ => ⟨_, _, rfl⟩
theorem nak (now : Time) : Statement (.nak now) := fun _ => ⟨_, _, rfl⟩
theorem can (now : Time) : Statement (.can now) := fun _ => ⟨_, _, rfl⟩
theorem noise (b : Byte) (now : Time) : Statement (.noise b now) := fun _ => ⟨_, _, rfl⟩
theorem poll (now : Time) : Statement (.poll now) := fun _ => ⟨_, rfl⟩
theorem transmit (command : Byte) (kind : Kind) (payload : List Byte) (now : Time) :
    Statement (.transmit command kind payload now) := fun _ => ⟨_, rfl⟩
theorem getAckTimeout : Statement (.getAckTimeout) := fun _ => ⟨_, rfl⟩
theorem setAckTimeout (value : Millis) : Statement (.setAckTimeout value) := fun _ => ⟨_, rfl⟩
theorem getByteTimeout : Statement (.getByteTimeout) := fun _ => ⟨_, rfl⟩
theorem setByteTimeout (value : Millis) : Statement (.setByteTimeout value) := fun _ => ⟨_, rfl⟩
theorem reservedOp6 : Statement (.reservedOp6) := fun _ => ⟨_, rfl⟩
theorem reservedOp7 : Statement (.reservedOp7) := fun _ => ⟨_, rfl⟩
theorem checksum (bs : List Byte) : Statement (.checksum bs) := fun _ => rfl
theorem encode (command : Byte) (kind : Kind) (payload : List Byte) : Statement (.encode command kind payload) := fun _ => rfl
theorem decode (bs : List Byte) : Statement (.decode bs) := fun _ => rfl
theorem classify (b : Byte) : Statement (.classify b) := fun _ => rfl
theorem rxbyte (b : Byte) (now : Time) : Statement (.rxbyte b now) := fun _ => rfl
theorem rxidle (now : Time) : Statement (.rxidle now) := fun _ => rfl
theorem ctrlAck (now : Time) : Statement (.ctrlAck now) := fun _ => rfl
theorem ctrlNak (now : Time) : Statement (.ctrlNak now) := fun _ => rfl
theorem ctrlCan (now : Time) : Statement (.ctrlCan now) := fun _ => rfl
theorem txchk (now : Time) : Statement (.txchk now) := fun _ => rfl
theorem screen (f : Frame) (now : Time) : Statement (.screen f now) := fun _ => rfl
theorem ddchk (now : Time) : Statement (.ddchk now) := fun _ => rfl
theorem reset : Statement (.reset) := fun _ => rfl

end Sys2Proof.Laws.PortOfRow
end

