-- ==== Sys2Proof/Laws/Receive.lean ====
section
/-! SUPPORT. What the assembler holds after the bytes of a frame, all at one `now` and with a byte timeout other than 0, so that
no byte deadline expires. -/

namespace Sys2Proof.Machine

variable {s : State} {now : Time}

/-- A byte at the time of the byte before it is never late. -/
theorem rxTimeoutCheck_same (hT : s.byteTimeoutMs ≠ 0#16) (x : RxState) (m : Memory) (c r : Byte) :
    rxTimeoutCheck now { s with rx := ⟨x, m, c, r, now⟩ } = { s with rx := ⟨x, m, c, r, now⟩ } := by
  refine rxTimeoutCheck_none (.inr ?_)
  have : s.byteTimeoutMs.toNat ≠ 0 := fun h => hT (BitVec.eq_of_toNat_eq (by simpa using h))
  simp only [BitVec.sub_self, BitVec.toNat_ofNat, Nat.zero_mod]
  omega

theorem rxByte_sof (b : Byte) (now : Time) (hs : s.rx.state = .waitSof) : rxByte b now s = armSof b now s := by
  rw [rxByte, rxTimeoutCheck_none (.inl hs)]; simp [rxArm, hs]

theorem rxBytes_append (now : Time) (xs ys : List Byte) (r : State × Bool) :
    rxBytes now (xs ++ ys) r = rxBytes now ys (rxBytes now xs r) := by
  induction xs generalizing r with
  | nil => rfl
  | cons b xs ih => exact ih _

/-- Payload bytes are stored upward from the count (R136). -/
theorem rxBytes_payload (ps : List Byte) (s : State) (buf : Memory) (count rem : Byte) (hT : s.byteTimeoutMs ≠ 0#16)
    (hr : s.rx = ⟨nextField rem, buf, count, rem, now⟩) (hp : ps.length ≤ rem.toNat)
    (hc : count.toNat + rem.toNat ≤ 180) :
    rxBytes now ps (s, false) = ({ s with rx := ⟨nextField (rem - lenByte ps.length), buf.writeBytes count.toNat ps,
      count + lenByte ps.length, rem - lenByte ps.length, now⟩ }, false) := by
  induction ps generalizing s buf count rem with
  | nil => simp [rxBytes, lenByte, Memory.writeBytes, ← hr]
  | cons b ps ih =>
    simp only [List.length_cons] at hp
    have hrem : rem ≠ 0#8 := by rintro rfl; simp at hp
    have h1 : rxByte b now s = ({ s with rx :=
        ⟨nextField (rem - 1#8), buf.write count.toNat b, count + 1#8, rem - 1#8, now⟩ }, false) := by
      rw [rxByte, show rxTimeoutCheck now s = s by
        have := rxTimeoutCheck_same (now := now) hT (nextField rem) buf count rem
        rwa [← hr] at this]
      simp only [rxArm, hr, nextField, if_neg hrem, armPayload_eq]
      rw [storeRx_in (by omega), hr]
    simp only [rxBytes, h1]
    have hr1 : (rem - 1#8).toNat = rem.toNat - 1 := by simp; omega
    have hc1 : (count + 1#8).toNat = count.toNat + 1 := by simp; omega
    rw [ih { s with rx := ⟨nextField (rem - 1#8), buf.write count.toNat b, count + 1#8, rem - 1#8, now⟩ } _ _ _ hT rfl
      (by omega) (by omega)]
    have e1 : rem - 1#8 - lenByte ps.length = rem - lenByte (b :: ps).length := by
      apply BitVec.eq_of_toNat_eq
      simp [lenByte]; omega
    have e2 : count + 1#8 + lenByte ps.length = count + lenByte (b :: ps).length := by
      apply BitVec.eq_of_toNat_eq
      simp [lenByte]; omega
    rw [e1, e2, hc1]
    rfl

/-- `SOF` and a legal length byte (R132, R133). -/
theorem rxBytes_length (hi : s.Inv) (hs : s.rx.state = .waitSof) (hT : s.byteTimeoutMs ≠ 0#16) (l : Byte)
    (hl : legalLength l = true) : rxBytes now [s.cfg.sof, l] (s, false) =
      ({ s with rx := ⟨.waitKind, Memory.write [] 0 l, 1#8, l - 3#8, now⟩ }, false) := by
  have hr := hi.rx.sof hs
  have h1 : rxByte s.cfg.sof now s = ({ s with rx := ⟨.waitLength, [], 0#8, 0#8, now⟩ }, false) := by
    rw [rxByte_sof _ _ hs]; simp [armSof, hr, RxAssembly.idle]
  simp only [rxBytes, h1]
  rw [rxByte, rxTimeoutCheck_same hT]
  simp only [rxArm, armLength, hl, if_true]
  rfl

/-- `SOF`, a legal length byte, kind, command and payload bytes, as many as the length byte promises or fewer (R132 to R136). -/
theorem rxBytes_fields (hi : s.Inv) (hs : s.rx.state = .waitSof) (hT : s.byteTimeoutMs ≠ 0#16) (l : Byte)
    (hl : legalLength l = true) (k c : Byte) (p : List Byte) (hp : p.length + 3 ≤ l.toNat) :
    rxBytes now (s.cfg.sof :: l :: k :: c :: p) (s, false) = ({ s with rx :=
      ⟨nextField (l - 3#8 - lenByte p.length), Memory.writeBytes [] 0 (l :: k :: c :: p), lenByte (p.length + 3),
        l - 3#8 - lenByte p.length, now⟩ }, false) := by
  have h := legalLength_iff.1 hl
  have h3 : (l - 3#8).toNat = l.toNat - 3 := by simp; omega
  rw [show s.cfg.sof :: l :: k :: c :: p = [s.cfg.sof, l] ++ ([k, c] ++ p) from rfl, rxBytes_append, rxBytes_length hi hs hT l hl]
  rw [rxBytes_append]
  have h2 : rxBytes now [k, c] ({ s with rx := ⟨.waitKind, Memory.write [] 0 l, 1#8, l - 3#8, now⟩ }, false) =
      ({ s with rx :=
        ⟨nextField (l - 3#8), ((Memory.write [] 0 l).write 1 k).write 2 c, 3#8, l - 3#8, now⟩ }, false) := by
    have hk : rxByte k now { s with rx := ⟨.waitKind, Memory.write [] 0 l, 1#8, l - 3#8, now⟩ } =
        ({ s with rx := ⟨.waitCommand, (Memory.write [] 0 l).write 1 k, 2#8, l - 3#8, now⟩ }, false) := by
      rw [rxByte, rxTimeoutCheck_same hT]
      simp only [rxArm, armKind, storeRx_in (show 1 < 180 by decide)]
    simp only [rxBytes, hk]
    rw [rxByte, rxTimeoutCheck_same hT]
    simp only [rxArm, armCommand, storeRx_in (show 2 < 180 by decide)]
  rw [h2, rxBytes_payload p _ _ 3#8 (l - 3#8) (by exact hT) rfl (by omega) (by rw [h3]; simp; omega)]
  have : 3#8 + lenByte p.length = lenByte (p.length + 3) := by
    apply BitVec.eq_of_toNat_eq; simp [lenByte, Nat.add_comm]
  rw [this]
  rfl

end Sys2Proof.Machine
end

