-- ==== Sys2Proof/Tests/Slice0.lean ====
section
/-! SUPPORT. Own tests: expected values from the spec's worked examples and 95_test_vectors.md, never from the model; and for
every statement that has hypotheses a state and operands that meet them. -/

namespace Sys2Proof.Machine.Tests

/-! ### Small states -/

/-- The bytes `01 05 00 04 01 02 FD` of the spec's worked frame. -/
def frame : List Byte := [0x01#8, 0x05#8, 0x00#8, 0x04#8, 0x01#8, 0x02#8, 0xFD#8]

/-- Reset state with this Receive Assembly State, last byte at 1000. -/
def receiving (x : RxState) (stored : List Byte) (remaining : Byte) : State :=
  { State.reset with rx := ⟨x, Memory.writeBytes [] 0 stored, BitVec.ofNat 8 stored.length, remaining, 1000#32⟩ }

/-- Reset state with the worked frame outstanding, sent at `at'` and retransmitted `retry` times. -/
def sending (retry : Byte) (at' : Time) : State :=
  { State.reset with tx := ⟨true, Memory.writeBytes [] 0 frame, 7#8, retry, at'⟩ }

/-- Reset state with the record `{04, [01 02], at'}`. -/
def recorded (at' : Time) : State :=
  { State.reset with dd := ⟨true, 0x04#8, 2#8, [(0, 0x01#8), (1, 0x02#8)], at'⟩ }

/-- Reset state with these bytes queued. -/
def queued (bs : List Byte) : State := { State.reset with rxq := bs }

/-- The frame `{Request, 04, [01 02]}`. -/
def worked : Frame := ⟨.request, 0x04#8, [0x01#8, 0x02#8]⟩

/-- The events an operation emits and its result. -/
def emitted (i : Instr) (s : State) : Option (List Event × Result) :=
  (stateAfter (exec i s)).map fun t => (t.events.drop s.events.length, t.result)

/-- A field of the state after an operation. -/
def after {α : Type} (i : Instr) (s : State) (f : State → α) : Option α := (stateAfter (exec i s)).map f

/-! ### Well-formedness: each check refuses an ill-formed term -/

theorem test_illformed_frame_payload :
    (Instr.data (.frame 0#8 0#8 (List.replicate 178 0#8) 0#8) 0#32).wellFormed Cfg.default = false := by
  simp [-List.reduceReplicate, Instr.wellFormed, DataUnit.wellFormed]
theorem test_illformed_bad_length : (Instr.data (.badLength 3#8) 0#32).wellFormed Cfg.default = false := by decide
theorem test_illformed_stalled_full :
    (Instr.data (.stalled [3#8, 0#8, 0#8, 0xFC#8]) 0#32).wellFormed Cfg.default = false := by decide
theorem test_illformed_stalled_length : (Instr.data (.stalled [2#8]) 0#32).wellFormed Cfg.default = false := by decide
theorem test_illformed_noise : (Instr.noise 0x06#8 0#32).wellFormed Cfg.default = false := by decide
theorem test_illformed_transmit :
    (Instr.transmit 0#8 .request (List.replicate 256 0#8) 0#32).wellFormed Cfg.default = false := by
  simp [-List.reduceReplicate, Instr.wellFormed]
theorem test_illformed_screen :
    (Instr.screen ⟨.request, 0#8, List.replicate 178 0#8⟩ 0#32).wellFormed Cfg.default = false := by
  simp [-List.reduceReplicate, Instr.wellFormed]

/-! ### Decoding: words written out from the spec's encodings (R80, R88, R89, R95) -/

theorem test_decode_ack : decodeTableWord 8 0b00000110 = some (.ack 0#32) := by decide
theorem test_decode_nak : decodeTableWord 8 0b00010101 = some (.nak 0#32) := by decide
theorem test_decode_can : decodeTableWord 8 0b00011000 = some (.can 0#32) := by decide
theorem test_decode_noise : decodeTableWord 8 0b01111110 = some (.noise 0x7E#8 0#32) := by decide
theorem test_decode_data_lead : decodeTableWord 8 0b00000001 = some (.data (.badLength 0#8) 0#32) := by decide
theorem test_decode_data_zero_payload :
    decodeTableWord 16 0b0000001100000001 = some (.data (.frame 0#8 0#8 [] 0#8) 0#32) := by decide
theorem test_decode_unit_then_rest : decode Cfg.default (.wire (frame ++ [0x06#8]) 9#32) =
    .ok (.data (.frame 0x00#8 0x04#8 [0x01#8, 0x02#8] 0xFD#8) 9#32, some (.wire [0x06#8] 9#32)) := by decide
theorem test_decode_host_codes : [decodeTableWord 3 0b000, decodeTableWord 3 0b001, decodeTableWord 3 0b010,
    decodeTableWord 3 0b011, decodeTableWord 3 0b100, decodeTableWord 3 0b101, decodeTableWord 3 0b110,
    decodeTableWord 3 0b111] = [some (.poll 0#32), some (.transmit 0#8 .request [] 0#32), some .getAckTimeout,
    some (.setAckTimeout 0#16), some .getByteTimeout, some (.setByteTimeout 0#16), some .reservedOp6,
    some .reservedOp7] := by decide
theorem test_decode_transmit_port :
    decode Cfg.default (.host ⟨1#3, 7#32, 0x04#8, 1#1, 1#8, [0xAA#8, 0xBB#8], 5#16⟩) =
      .ok (.transmit 0x04#8 .response [0xAA#8] 7#32, none) := by decide
theorem test_decode_reset_input : decode Cfg.default .resetInput = .ok (.reset, none) := by decide
theorem test_decode_named : decode Cfg.default (.named (.rxidle 5#32)) = .ok (.rxidle 5#32, none) := by decide
theorem test_decode_named_host : decode Cfg.default (.named (.poll 5#32)) = .error .notInternal := by decide
theorem test_decode_empty : decode Cfg.default (.wire [] 0#32) = .error .emptyUnit := by decide

/-! ### One operation each (95_test_vectors.md) -/

/-- 2.1: across the wrap. -/
theorem test_elapsed_wrap : elapsed 0#32 4294967046#32 = 250#32 := by decide
/-- 2.1: the deadline boundary. -/
theorem test_expired_boundary : expired 1249#32 1000#32 250#32 = false ∧ expired 1250#32 1000#32 250#32 = true := by decide

/-- 2.3, and R191. -/
theorem test_data_good : emitted (.data (.frame 0x00#8 0x04#8 [0x01#8, 0x02#8] 0xFD#8) 1000#32) State.reset =
    some ([.deliver worked, .txBytes [0x06#8], .evFrameReceived], .terminal true) := by decide
/-- R139. -/
theorem test_data_bad_kind : emitted (.data (.frame 0x02#8 0x10#8 [] 0xEE#8) 0#32) State.reset =
    some ([.evBadKind 0x02#8], .terminal true) := by decide
/-- 2.4. -/
theorem test_ack_busy : emitted (.ack 40#32) (sending 2#8 0#32) =
    some ([.txAcked, .txDone .success], .terminal false) := by decide
/-- 2.3: a marker inside a frame is data. -/
theorem test_ack_inside_frame : emitted (.ack 1000#32) (receiving .waitKind [5#8] 2#8) = some ([], .terminal false) := by
  decide
/-- 2.4. -/
theorem test_nak_busy : emitted (.nak 30#32) (sending 0#8 0#32) =
    some ([.txBytes frame, .evRetransmit .nak], .terminal false) := by decide
/-- 2.6. -/
theorem test_nak_stray : emitted (.nak 30#32) State.reset = some ([.evStray .nak], .terminal false) := by decide
/-- R165. -/
theorem test_can_busy : emitted (.can 12#32) (sending 0#8 0#32) =
    some ([.txDone .failCancelled], .terminal false) := by decide
/-- 2.3: `CAN` in `WaitKind` is stored. -/
theorem test_can_inside_frame : after (.can 1000#32) (receiving .waitKind [5#8] 2#8) (fun t => (t.rx.state, t.rx.buf.read 1)) =
    some (.waitCommand, 0x18#8) := by decide
/-- R132. -/
theorem test_noise : emitted (.noise 0x7E#8 10#32) State.reset = some ([.evNoise 0x7E#8], .terminal false) := by decide
/-- 2.6: the loop does not stop on symbols or noise. -/
theorem test_poll_symbols : emitted (.poll 5#32) (queued [0x7E#8, 0x00#8, 0x06#8, 0x15#8, 0x18#8, 0xFF#8]) =
    some ([.evNoise 0x7E#8, .evNoise 0x00#8, .evStray .ack, .evStray .nak, .evStray .can, .evNoise 0xFF#8],
      .outcome .idle) := by decide
/-- 2.6: the loop stops at an illegal length. -/
theorem test_poll_stops : after (.poll 7#32) (queued [0x01#8, 0xB5#8, 0x55#8]) (fun t => (t.rxq, t.events, t.result)) =
    some ([0x55#8], [.evBadLength 0xB5#8], .outcome .frameError) := by decide
/-- 2.4. -/
theorem test_transmit : after (.transmit 0x04#8 .request [0x01#8, 0x02#8] 0#32) State.reset (fun t => (t.events, t.tx)) =
    some ([.txBytes frame], (sending 0#8 0#32).tx) := by decide
/-- 2.4: `Busy` is tested first. -/
theorem test_transmit_busy : emitted (.transmit 1#8 .request (List.replicate 178 0#8) 0#32) (sending 0#8 0#32) =
    some ([], .transmit .busy) := by decide
/-- R204, R206. -/
theorem test_getters : emitted .getAckTimeout State.reset = some ([], .value 1600#16) ∧
    emitted .getByteTimeout State.reset = some ([], .value 250#16) := by decide
/-- R205, R207. -/
theorem test_setters : after (.setAckTimeout 500#16) State.reset (·.ackTimeoutMs) = some 500#16 ∧
    after (.setByteTimeout 0#16) State.reset (·.byteTimeoutMs) = some 0#16 := by decide
/-- 2.6. -/
theorem test_reserved : after .reservedOp6 State.reset id = some State.reset ∧
    after .reservedOp7 State.reset id = some State.reset := by decide
/-- 2.2. -/
theorem test_checksum : emitted (.checksum [0x05#8, 0x00#8, 0x04#8, 0x01#8, 0x02#8]) State.reset = some ([], .byte 0xFD#8) ∧
    emitted (.checksum []) State.reset = some ([], .byte 0xFF#8) := by decide
/-- 2.2: all four marker values inside a frame. -/
theorem test_encode : emitted (.encode 0x15#8 .response [0x06#8, 0x15#8, 0x18#8, 0x01#8]) State.reset =
    some ([], .encoded (.bytes [0x01#8, 0x07#8, 0x01#8, 0x15#8, 0x06#8, 0x15#8, 0x18#8, 0x01#8, 0xE6#8])) := by decide
/-- 2.2: check (3). -/
theorem test_decode_length : emitted (.decode [0x01#8, 0x06#8, 0x00#8, 0x04#8, 0x01#8, 0x02#8, 0xFE#8]) State.reset =
    some ([], .decoded .framingError) := by decide
/-- 2.2: (2) before (3). -/
theorem test_decode_checksum_first : emitted (.decode [0x01#8, 0x04#8, 0x00#8, 0x04#8, 0x01#8, 0x02#8, 0xFD#8]) State.reset =
    some ([], .decoded .checksumError) := by decide
/-- R113. -/
theorem test_classify : emitted (.classify 0x06#8) State.reset = some ([], .lead .symAck) ∧
    emitted (.classify 0x00#8) State.reset = some ([], .lead .noise) := by decide
/-- R130: the late byte is a lead byte. -/
theorem test_rxbyte_late : after (.rxbyte 0x01#8 1250#32) (receiving .waitPayload [5#8, 0#8, 4#8] 2#8)
    (fun t => (t.events, t.rx)) = some ([.evRxTimeout], ⟨.waitLength, [], 0#8, 0#8, 1250#32⟩) := by decide
/-- 2.3: the checksum test comes before the kind test. -/
theorem test_rxbyte_checksum_first : emitted (.rxbyte 0xEF#8 1000#32) (receiving .waitChecksum [3#8, 2#8, 0x10#8] 0#8) =
    some ([.evChecksumFailed, .txBytes [0x15#8]], .terminal true) := by decide
/-- R143 with its boundary. -/
theorem test_rxidle : emitted (.rxidle 1249#32) (receiving .waitKind [5#8] 2#8) = some ([], .none) ∧
    emitted (.rxidle 1250#32) (receiving .waitKind [5#8] 2#8) = some ([.evRxTimeout], .none) := by decide
/-- 2.4. -/
theorem test_ctrl_ack : emitted (.ctrlAck 0#32) (sending 2#8 0#32) = some ([.txAcked, .txDone .success], .none) := by decide
/-- 2.4: the budget is used up. -/
theorem test_ctrl_nak_final : emitted (.ctrlNak 30#32) (sending 2#8 0#32) = some ([.txDone .failNak], .none) := by decide
/-- 2.4: the retransmission. -/
theorem test_ctrl_nak_retry : after (.ctrlNak 30#32) (sending 0#8 0#32) (fun t => (t.tx.retry, t.tx.sendTime)) =
    some (1#8, 30#32) := by decide
/-- 2.4. -/
theorem test_ctrl_can : emitted (.ctrlCan 12#32) (sending 0#8 0#32) = some ([.txDone .failCancelled], .none) := by decide
/-- 2.4: across the wrap of the clock. -/
theorem test_txchk_wrap : emitted (.txchk 599#32) (sending 0#8 4294966296#32) = some ([], .none) ∧
    emitted (.txchk 600#32) (sending 0#8 4294966296#32) =
      some ([.txBytes frame, .evRetransmit .timeout], .none) := by decide
/-- 2.5: the kind is not compared; across the wrap of the clock. -/
theorem test_screen_suppresses : emitted (.screen ⟨.response, 0x04#8, [0x01#8, 0x02#8]⟩ 2903#32) (recorded 4294967000#32) =
    some ([.txBytes [0x06#8], .evDupSuppressed], .none) := by decide
/-- 2.5: the record is replaced whole. -/
theorem test_screen_replaces : after (.screen ⟨.request, 0x04#8, [0x01#8]⟩ 1100#32) (recorded 1000#32) (·.dd) =
    some ⟨true, 0x04#8, 1#8, [(0, 0x01#8)], 1100#32⟩ := by decide
/-- 2.5 with its boundary. -/
theorem test_ddchk : after (.ddchk 4199#32) (recorded 1000#32) (·.dd.valid) = some true ∧
    after (.ddchk 4200#32) (recorded 1000#32) (·.dd) = some DedupRecord.absent := by decide
/-- R222: total on every state, also on one that breaks R31: the byte has no place in `rx_buf`, the frame goes on. -/
theorem test_payload_byte_outside_the_buffer :
    let s := { State.reset with rx := ⟨.waitPayload, [(0, 180#8)], 180#8, 2#8, 1000#32⟩ }
    after (.rxbyte 7#8 1001#32) s (·.rx) = some ⟨.waitPayload, [(0, 180#8)], 181#8, 1#8, 1001#32⟩ := by decide
/-- 2.7. -/
theorem test_reset : after .reset { sending 1#8 800#32 with
    rx := (receiving .waitPayload [5#8, 0#8, 4#8, 1#8] 1#8).rx, ackTimeoutMs := 500#16, byteTimeoutMs := 100#16,
    dd := (recorded 700#32).dd } id = some State.reset := by decide

/-- A step of a placed word: `ACK` on the wire, then `GET_ACK_TIMEOUT` on the host port. -/
theorem test_fetch_word : ((stateAfter (step (State.reset.withFetchWord 8 0x06))).map (·.events)) = some [.evStray .ack] ∧
    ((stateAfter (step (State.reset.withFetchWord 3 2))).map (·.result)) = some (.value 1600#16) := by decide

/-- R98: a named sub-step of RXBYTE is no step; R9: a named primitive is. -/
theorem test_step_named :
    step { State.reset with requests := [.issue (.named (.ctrlAck 5#32))] } = .refused (.notIssuable (.ctrlAck 5#32)) ∧
    step { State.reset with requests := [.issue (.named (.rxidle 5#32))] } = .next State.reset := ⟨rfl, rfl⟩

/-! ### Witnesses: hypotheses that can be met, each clause at a boundary -/

theorem reset_inv : State.reset.Inv :=
  ⟨by decide, RxAssembly.idle_inv, Outstanding.cleared_inv _, DedupRecord.absent_inv⟩

theorem receiving_inv (x : RxState) (bs : List Byte) (r : Byte) (h : (receiving x bs r).rx.Inv) : (receiving x bs r).Inv :=
  ⟨(show Cfg.default.legal = true by decide), h, Outstanding.cleared_inv _, DedupRecord.absent_inv⟩

theorem waitLength_inv : (receiving .waitLength [] 0#8).Inv := receiving_inv _ _ _ (by constructor <;> decide)
theorem waitKind_inv : (receiving .waitKind [5#8] 2#8).Inv := receiving_inv _ _ _ (by constructor <;> decide)
theorem waitCommand_inv : (receiving .waitCommand [3#8, 0#8] 0#8).Inv := receiving_inv _ _ _ (by constructor <;> decide)
theorem waitPayload_inv : (receiving .waitPayload [5#8, 0#8, 4#8, 1#8] 1#8).Inv :=
  receiving_inv _ _ _ (by constructor <;> decide)
theorem waitChecksum_inv : (receiving .waitChecksum [3#8, 2#8, 0x10#8] 0#8).Inv :=
  receiving_inv _ _ _ (by constructor <;> decide)
theorem sending_inv : (sending 2#8 0#32).Inv :=
  ⟨by decide, RxAssembly.idle_inv, by constructor <;> decide, DedupRecord.absent_inv⟩
theorem recorded_inv : (recorded 1000#32).Inv :=
  ⟨by decide, RxAssembly.idle_inv, Outstanding.cleared_inv _, by constructor <;> decide⟩

theorem witness_DecodeOfEncodeIsTheInstruction : Cfg.default.legal = true ∧
    (Instr.transmit 4#8 .response (List.replicate 255 7#8) 9#32).wellFormed Cfg.default = true := by
  simp [-List.reduceReplicate, Instr.wellFormed, Cfg.default, Cfg.legal]
theorem witness_BytesAfterAUnitDoNotChangeIt : Cfg.default.legal = true ∧
    (Instr.data (.badLength 181#8) 9#32).wellFormed Cfg.default = true ∧
    encode Cfg.default (.data (.badLength 181#8) 9#32) = .wire [1#8, 181#8] 9#32 ∧
    ∀ tail at', Instr.data (.badLength 181#8) 9#32 ≠ .data (.stalled tail) at' := ⟨by decide, by decide, rfl, by simp⟩
theorem witness_WireUnitsAreTheBytesRead : frame ≠ [] ∧ Cfg.default.legal = true := by decide
theorem witness_HostCodesSelectTheirOperations :
    let p : BitVec 3 → Byte → List Byte → HostPort := fun op n bs => ⟨op, 0#32, 0#8, 1#1, n, bs, 0#16⟩
    (p 1#3 255#8 (List.replicate 255 0#8)).plen.toNat ≤ (p 1#3 255#8 (List.replicate 255 0#8)).payload.length ∧
    (p 1#3 1#8 []).payload.length < (p 1#3 1#8 []).plen.toNat ∧ (p 0#3 0#8 []).op = 0#3 ∧ (p 7#3 0#8 []).op = 7#3 := by
  simp [-List.reduceReplicate]
theorem witness_ChecksumIsComplementOfXor : [0x0F#8, 0xF0#8].foldl (· ^^^ ·) 0#8 = 0xFF#8 ∧
    [0x01#8, 0x02#8].Perm [0x02#8, 0x01#8] := ⟨by decide, .swap _ _ _⟩
theorem witness_EncodeBuildsTheFrame : (List.replicate 177 0#8 : List Byte).length ≤ 177 ∧
    178 ≤ (List.replicate 178 0#8 : List Byte).length := by simp [-List.reduceReplicate]
theorem witness_DecodeMakesItsChecksInOrder :
    [0x06#8].head? ≠ some State.reset.cfg.sof ∧
    0xFD#8 = ~~~ ([0x05#8, 0x00#8, 0x04#8, 0x01#8, 0x02#8].foldl (· ^^^ ·) 0#8) ∧ (0x05#8).toNat = 2 + 3 ∧
    0x00#8 = State.reset.cfg.kindReq ∧ 0x01#8 = State.reset.cfg.kindRsp ∧ 0x02#8 ≠ State.reset.cfg.kindReq ∧
    0xFE#8 = ~~~ ([0x06#8, 0x00#8, 0x04#8, 0x01#8, 0x02#8].foldl (· ^^^ ·) 0#8) ∧ (0x06#8).toNat ≠ 2 + 3 := by decide
theorem witness_FrameRoundTripBothWays : State.reset.cfg.legal = true ∧
    exec (.decode frame) State.reset = .next { State.reset with result := .decoded (.frame worked) } := ⟨by decide, rfl⟩
theorem witness_SingleFlippedBitIsDetected : exec (.encode 4#8 .request [1#8, 2#8]) State.reset =
    .next { State.reset with result := .encoded (.bytes frame) } ∧ 6 < frame.length := ⟨rfl, by decide⟩
theorem witness_LateByteStartsAfresh : (receiving .waitKind [5#8] 2#8).rx.state ≠ .waitSof ∧
    (receiving .waitKind [5#8] 2#8).byteTimeoutMs.toNat ≤ (1250#32 - (receiving .waitKind [5#8] 2#8).rx.lastTime).toNat := by
  decide
theorem witness_LeadByteSelectsTheUnit : State.reset.cfg.legal = true ∧ State.reset.rx.state = .waitSof ∧
    (0x7E#8) ∉ [State.reset.cfg.sof, State.reset.cfg.ack, State.reset.cfg.nak, State.reset.cfg.can] := by decide
theorem witness_LengthByteIsStoredOrRefused : (receiving .waitLength [] 0#8).rx.state = .waitLength ∧
    (1249#32 - (receiving .waitLength [] 0#8).rx.lastTime).toNat < (receiving .waitLength [] 0#8).byteTimeoutMs.toNat ∧
    (2#8).toNat < 3 ∧ 180 < (181#8).toNat ∧ 3 ≤ (3#8).toNat ∧ (180#8).toNat ≤ 180 := by decide
theorem witness_KindAndCommandBytesAreStored : (receiving .waitKind [5#8] 2#8).rx.state = .waitKind ∧
    (receiving .waitCommand [3#8, 0#8] 0#8).rx.state = .waitCommand ∧
    (1249#32 - (receiving .waitKind [5#8] 2#8).rx.lastTime).toNat < (receiving .waitKind [5#8] 2#8).byteTimeoutMs.toNat := by
  decide
theorem witness_PayloadByteIsStoredAtTheCount :
    let s := { State.reset with rx := ⟨.waitPayload, [(0, 180#8)], 179#8, 1#8, 1000#32⟩ }
    s.rx.state = .waitPayload ∧ s.rx.count.toNat < 180 ∧ (1249#32 - s.rx.lastTime).toNat < s.byteTimeoutMs.toNat := by decide
theorem witness_ChecksumByteEndsTheFrame :
    let s := receiving .waitChecksum [3#8, 2#8, 0x10#8] 0#8
    let c := ~~~ (((List.range s.rx.count.toNat).map s.rx.buf.read).foldl (· ^^^ ·) 0#8)
    s.cfg.legal = true ∧ s.rx.state = .waitChecksum ∧ s.rx.count.toNat ≤ 180 ∧
    (1249#32 - s.rx.lastTime).toNat < s.byteTimeoutMs.toNat ∧ 0xEE#8 = c ∧ s.rx.buf.read 1 ≠ s.cfg.kindReq ∧
    s.rx.buf.read 1 ≠ s.cfg.kindRsp ∧ 0xEF#8 ≠ c ∧
    (receiving .waitChecksum [3#8, 0#8, 0x10#8] 0#8).rx.buf.read 1 = s.cfg.kindReq ∧
    (receiving .waitChecksum [3#8, 1#8, 0x10#8] 0#8).rx.buf.read 1 = s.cfg.kindRsp := by decide
theorem witness_TransitionTableOfTheAssembler : (receiving .waitPayload [5#8, 0#8, 4#8, 1#8] 1#8).Inv ∧
    (1249#32 - (receiving .waitPayload [5#8, 0#8, 4#8, 1#8] 1#8).rx.lastTime).toNat <
      (receiving .waitPayload [5#8, 0#8, 4#8, 1#8] 1#8).byteTimeoutMs.toNat := ⟨waitPayload_inv, by decide⟩
theorem witness_MarkerBytesInsideAFrameAreData : (receiving .waitLength [] 0#8).Inv ∧
    (receiving .waitLength [] 0#8).rx.state ≠ .waitSof ∧
    (1249#32 - (receiving .waitLength [] 0#8).rx.lastTime).toNat < (receiving .waitLength [] 0#8).byteTimeoutMs.toNat :=
  ⟨waitLength_inv, by decide, by decide⟩
theorem witness_OneByteUnitsInTheIdleState : (sending 1#8 0#32).rx.state = .waitSof ∧ (sending 1#8 0#32).tx.valid = true ∧
    (sending 1#8 0#32).cfg.legal = true ∧ (sending 1#8 0#32).tx.retry.toNat < (sending 1#8 0#32).cfg.maxRetries.toNat ∧
    (sending 1#8 0#32).tx.len.toNat ≤ 182 ∧ (sending 2#8 0#32).cfg.maxRetries.toNat ≤ (sending 2#8 0#32).tx.retry.toNat ∧
    (Instr.noise 0x7E#8 0#32).wellFormed Cfg.default = true := by decide
theorem witness_ReceivedFrameAgreesWithDecode : State.reset.Inv ∧ State.reset.rx.state = .waitSof ∧
    List.IsChain (fun a b : Time => (b - a).toNat < State.reset.byteTimeoutMs.toNat)
      ([0#32, 249#32, 498#32, 498#32] ++ [747#32]) := ⟨reset_inv, rfl, by decide⟩
theorem witness_GoodFrameIsDeliveredAndAcknowledged : State.reset.Inv ∧ State.reset.rx.state = .waitSof ∧
    State.reset.byteTimeoutMs ≠ 0#16 ∧ State.reset.dd.valid = false := ⟨reset_inv, rfl, by decide, rfl⟩
theorem witness_UnfinishedUnitsAreRefusedOrWait : (DataUnit.badLength 2#8).wellFormed = true ∧
    (DataUnit.badLength 181#8).wellFormed = true ∧ (DataUnit.stalled []).wellFormed = true ∧
    (DataUnit.stalled [180#8]).wellFormed = true ∧ (DataUnit.stalled [3#8, 0#8, 0#8]).wellFormed = true := by decide
theorem witness_TransmitAcceptsOneFrameAtATime : (sending 0#8 0#32).tx.valid = true ∧ State.reset.tx.valid = false ∧
    177 < (List.replicate 178 0#8 : List Byte).length ∧ (List.replicate 177 0#8 : List Byte).length ≤ 177 :=
  ⟨rfl, rfl, by simp [-List.reduceReplicate], by simp [-List.reduceReplicate]⟩
theorem witness_NakTakesAStepOfTheRetryBudget : (sending 1#8 0#32).tx.valid = true ∧
    (sending 1#8 0#32).tx.retry.toNat < (sending 1#8 0#32).cfg.maxRetries.toNat ∧ (sending 1#8 0#32).tx.len.toNat ≤ 182 ∧
    (sending 2#8 0#32).cfg.maxRetries.toNat ≤ (sending 2#8 0#32).tx.retry.toNat := by decide
theorem witness_AckDeadlineTakesAStepOfTheRetryBudget :
    (sending 1#8 0#32).ackTimeoutMs.toNat ≤ (1600#32 - (sending 1#8 0#32).tx.sendTime).toNat ∧
    (1599#32 - (sending 1#8 0#32).tx.sendTime).toNat < (sending 1#8 0#32).ackTimeoutMs.toNat := by decide
theorem witness_SilentPeerGetsEveryRetryAndOneFailure : State.reset.Inv ∧ State.reset.tx.valid = false ∧
    State.reset.rx.state = .waitSof ∧ State.reset.rxq = [] ∧
    [1600#32, 3200#32, 4800#32].length = State.reset.cfg.maxRetries.toNat + 1 ∧
    List.IsChain (fun a b : Time => State.reset.ackTimeoutMs.toNat ≤ (b - a).toNat) (0#32 :: [1600#32, 3200#32, 4800#32]) :=
  ⟨reset_inv, rfl, rfl, rfl, rfl, by decide⟩
theorem witness_ScreenDeliversOrSuppresses : (recorded 1000#32).dd.plen.toNat ≤ 177 ∧ (recorded 1000#32).dd.valid = true ∧
    (recorded 1000#32).dd.cmd = worked.command ∧ (recorded 1000#32).dd.plen.toNat = worked.payload.length ∧
    (List.range (recorded 1000#32).dd.plen.toNat).map (recorded 1000#32).dd.payload.read = worked.payload ∧
    (4199#32 - (recorded 1000#32).dd.time).toNat < (recorded 1000#32).cfg.dedupWindowMs.toNat ∧
    ¬ (4200#32 - (recorded 1000#32).dd.time).toNat < (recorded 1000#32).cfg.dedupWindowMs.toNat := by decide
theorem witness_ExpiredRecordIsDropped : (recorded 1000#32).dd.valid = true ∧
    (recorded 1000#32).cfg.dedupWindowMs.toNat ≤ (4200#32 - (recorded 1000#32).dd.time).toNat ∧
    (4199#32 - (recorded 1000#32).dd.time).toNat < (recorded 1000#32).cfg.dedupWindowMs.toNat := by decide
theorem witness_SecondIdenticalFrameIsNotDelivered : (recorded 1000#32).Inv ∧ (recorded 1000#32).dd.cmd ≠ 5#8 ∧
    (3199#32 - 0#32).toNat < (recorded 1000#32).cfg.dedupWindowMs.toNat := ⟨recorded_inv, by decide, by decide⟩
theorem witness_OnlyTheLastDeliveryIsRemembered : State.reset.Inv ∧ State.reset.dd.valid = false ∧
    worked.payload ≠ [0x01#8] := ⟨reset_inv, rfl, by decide⟩
/-- For PollAnswersTheMostSignificantOutcome, AtMostOneFrameEndsInAPoll and HostPortResultsHaveTheirCodes. -/
theorem witness_EveryPollStatement : ∃ t, exec (.poll 5#32) (queued [0x01#8, 0xB5#8, 0x55#8]) = .next t ∧ t.rxq ≠ [] :=
  ⟨_, rfl, by decide⟩
theorem witness_PollOfAnIdleCoreDoesNothing : (recorded 1000#32).rxq = [] ∧ (recorded 1000#32).rx.state = .waitSof ∧
    (recorded 1000#32).tx.valid = false ∧
    (4199#32 - (recorded 1000#32).dd.time).toNat < (recorded 1000#32).cfg.dedupWindowMs.toNat := by decide
theorem witness_FirstOperationsAfterReset : (sending 2#8 0#32).cfg.legal = true ∧ ∃ t, exec .reset (sending 2#8 0#32) = .next t ∧
    t.rxq = [] := ⟨by decide, _, rfl, rfl⟩
theorem witness_EveryStepKeepsTheInvariant : State.reset.Inv ∧ ∃ t, step (State.reset.withFetchWord 8 0x06) = .next t ∧
    (State.reset.withFetchWord 8 0x06).Inv := ⟨reset_inv, _, rfl, reset_inv.congr rfl rfl rfl rfl⟩
/-- For EveryAcceptedFrameHasOneCompletion, EveryOperationCompletes, StepNeverFaults, CoreSendsOnlyFramesAcksAndNaks,
OneControlByteForEachFrame, EventsAreNeverTakenBack and OnlyTheirOperationsWrite. -/
theorem witness_EveryOperationStatement : (sending 2#8 0#32).Inv ∧
    (Instr.nak 5#32).wellFormed (sending 2#8 0#32).cfg = true ∧ Instr.nak 5#32 ≠ .reset ∧
    ∃ t, exec (.nak 5#32) (sending 2#8 0#32) = .next t := ⟨sending_inv, rfl, by simp, _, rfl⟩
theorem witness_IndexOutsideABufferCompletes :
    let s : State := { State.reset with
      rx := ⟨.waitChecksum, [], 181#8, 0#8, 0#32⟩, tx := ⟨true, [], 183#8, 0#8, 0#32⟩, dd := ⟨true, 0#8, 178#8, [], 0#32⟩ }
    s.cfg.legal = true ∧ s.rx.buf.read 1 = s.cfg.kindReq ∧ s.tx.valid = true ∧
    s.ackTimeoutMs.toNat ≤ (1600#32 - s.tx.sendTime).toNat ∧ 180 < s.rx.count.toNat ∧
    (249#32 - s.rx.lastTime).toNat < s.byteTimeoutMs.toNat ∧ 182 < s.tx.len.toNat ∧
    s.tx.retry.toNat < s.cfg.maxRetries.toNat ∧ 177 < s.dd.plen.toNat ∧
    s.dd.plen.toNat = (List.replicate 178 0#8 : List Byte).length ∧
    180 ≤ ({ s.rx with state := .waitPayload, count := 180#8 } : RxAssembly).count.toNat ∧ State.reset.dd.plen.toNat ≤ 177 := by
  simp [-List.reduceReplicate, State.reset, Cfg.default, DedupRecord.absent, Cfg.legal, Memory.read]
/-- For SubBlocksAreTouchedByTheirOwnersOnly. -/
theorem witness_SubBlockStatements : (∃ t, exec (.transmit 4#8 .request [] 0#32) State.reset = .next t) ∧
    (∃ t, exec (.ctrlNak 0#32) (sending 0#8 0#32) = .next t) ∧ (∃ t, exec (.txchk 1600#32) (sending 0#8 0#32) = .next t) ∧
    (∃ t, exec (.rxidle 1250#32) (receiving .waitKind [5#8] 2#8) = .next t) ∧
    (∃ t, exec (.screen worked 0#32) State.reset = .next t) ∧ ∃ t, exec (.ddchk 4200#32) (recorded 1000#32) = .next t :=
  ⟨⟨_, rfl⟩, ⟨_, rfl⟩, ⟨_, rfl⟩, ⟨_, rfl⟩, ⟨_, rfl⟩, ⟨_, rfl⟩⟩
theorem witness_ReceptionDoesNotDependOnTheTransmission : (receiving .waitChecksum [3#8, 0#8, 0#8] 0#8).rx.state ≠ .waitSof ∧
    (1249#32 - (receiving .waitChecksum [3#8, 0#8, 0#8] 0#8).rx.lastTime).toNat <
      (receiving .waitChecksum [3#8, 0#8, 0#8] 0#8).byteTimeoutMs.toNat ∧
    ∃ t, exec (.rxbyte 0xFC#8 1249#32) (receiving .waitChecksum [3#8, 0#8, 0#8] 0#8) = .next t :=
  ⟨by decide, by decide, _, rfl⟩
theorem witness_ZeroByteTimeoutStopsReception :
    let s := { queued [0x01#8, 0x03#8, 0x00#8, 0x00#8, 0xFC#8] with byteTimeoutMs := 0#16 }
    s.byteTimeoutMs = 0#16 ∧ (∀ f now, Instr.poll 50#32 ≠ .screen f now) ∧ ∃ t, exec (.poll 50#32) s = .next t :=
  ⟨rfl, by simp, _, rfl⟩
theorem witness_StepRunsTheDecodedOperation :
    let s := { State.reset with requests := [.issue (.wire [0x06#8, 0x15#8] 7#32)] }
    s.cfg.legal = true ∧ decode s.cfg (.wire [0x06#8, 0x15#8] 7#32) = .ok (.ack 7#32, some (.wire [0x15#8] 7#32)) ∧
    issuable (.ack 7#32) = true := by decide
theorem witness_StepsThatRunNoOperation : ({ Cfg.default with nak := 0x06#8 } : Cfg).legal = false ∧
    Cfg.default.legal = true ∧ decode Cfg.default (.wire [] 0#32) = .error .emptyUnit := by decide
theorem witness_SubStepsAreNotIssuable :
    let c := Code.named (.screen worked 7#32)
    let s := { State.reset with requests := [.issue c] }
    s.cfg.legal = true ∧ decode s.cfg c = .ok (.screen worked 7#32, none) ∧ issuable (.screen worked 7#32) = false := by decide

end Sys2Proof.Machine.Tests
end

section
/-! PROOFS. What a step answers for each kind of next request (R7, R8, R9), and the statements about steps, about what every
operation keeps, and about the reset state. -/

namespace Sys2Proof.Machine

variable {s t : State} {rest : List Request} {c : Code} {i : Instr} {more : Option Code}

/-! ### One equation of `step` for each kind of next request -/

theorem step_of_illegalCfg (hl : s.cfg.legal = false) : step s = .refused .illegalCfg := by simp [step, hl]

theorem step_of_silence (hl : s.cfg.legal = true) (hr : s.requests = []) : step s = .next s := by
  simp [step, hl, State.nextRequest, hr]

theorem step_of_arrive {bs : List Byte} (hl : s.cfg.legal = true) (hr : s.requests = .arrive bs :: rest) :
    step s = .next { s with rxq := s.rxq ++ bs, requests := rest } := by
  simp [step, hl, State.nextRequest, hr, State.arrive]

theorem step_of_undecodable {e : DecodeError} (hl : s.cfg.legal = true) (hr : s.requests = .issue c :: rest)
    (hd : decode s.cfg c = .error e) : step s = .refused (.undecodable e) := by
  simp [step, hl, State.nextRequest, hr, hd]

theorem step_of_notIssuable (hl : s.cfg.legal = true) (hr : s.requests = .issue c :: rest)
    (hd : decode s.cfg c = .ok (i, more)) (hi : issuable i = false) : step s = .refused (.notIssuable i) := by
  simp [step, hl, State.nextRequest, hr, hd, hi]

theorem step_of_issuable (hl : s.cfg.legal = true) (hr : s.requests = .issue c :: rest)
    (hd : decode s.cfg c = .ok (i, more)) (hi : issuable i = true) :
    step s = exec i (State.putBack more { s with requests := rest }) := by
  simp [step, hl, State.nextRequest, hr, hd, hi]

/-! ### The invariant -/

/-- What a decoded operation answers meets the invariant if the state before its request does: every decoded operation is well
formed, and the requests are no part of the invariant. -/
theorem exec_decoded_inv (h : s.Inv) (hd : decode s.cfg c = .ok (i, more))
    (he : exec i (State.putBack more { s with requests := rest }) = .next t) : t.Inv := by
  have hp : (State.putBack more { s with requests := rest }).Inv :=
    h.congr (putBack_cfg _ _) (putBack_rx _ _) (putBack_tx _ _) (putBack_dd _ _)
  exact (exec_cases he).inv hp ((putBack_cfg _ _).symm ▸ decode_wellFormed hd)

/-- A step keeps the invariant: with nothing requested and with bytes arriving no sub-block changes. -/
theorem step_inv (h : s.Inv) (hs : step s = .next t) : t.Inv := by
  obtain ⟨-, ⟨-, rfl⟩ | ⟨bs, rest, -, rfl⟩ | ⟨c, rest, i, more, -, hd, -, he⟩⟩ := step_cases hs
  · exact h
  · exact h.congr rfl rfl rfl rfl
  · exact exec_decoded_inv h hd he

/-- Settles O47, by the three kinds of step. -/
theorem everyStepKeepsTheInvariant : Obligations.EveryStepKeepsTheInvariant := fun _ _ => step_inv

/-- Settles O49: by the next request, and for an issued code by what it decodes to. -/
theorem stepNeverFaults : Obligations.StepNeverFaults := by
  intro s hl
  have completes {t : State} (ht : step s = .next t) : ∃ t, step s = .next t ∧ (s.Inv → t.Inv) :=
    ⟨t, ht, fun h => step_inv h ht⟩
  match hr : s.requests with
  | [] => exact .inl (completes (step_of_silence hl hr))
  | .arrive bs :: rest => exact .inl (completes (step_of_arrive hl hr))
  | .issue c :: rest =>
    match hd : decode s.cfg c with
    | .error e => exact .inr (.inl ⟨c, rest, e, rfl, hd, step_of_undecodable hl hr hd⟩)
    | .ok (i, more) =>
      cases hi : issuable i with
      | false => exact .inr (.inr ⟨c, rest, i, more, rfl, hd, hi, step_of_notIssuable hl hr hd hi⟩)
      | true =>
        obtain ⟨t, ht⟩ := exec_total i (State.putBack more { s with requests := rest })
        exact .inl (completes ((step_of_issuable hl hr hd hi).trans ht))

/-! ### What every operation keeps -/

/-- An operation only adds events. -/
theorem ExecCase.events (hc : ExecCase s i t) : s.events <+: t.events := by
  cases hc with
  | effects r he _ _ =>
    obtain ⟨es, h⟩ := he.events
    exact ⟨es, h.symm⟩
  | delivered f now _ => exact List.prefix_append _ _
  | accepted c k p now _ _ => exact List.prefix_append _ _
  | setAck v => exact List.prefix_rfl
  | setByte v => exact List.prefix_rfl
  | reset => exact List.prefix_rfl

/-- Settles O53: the bytes sent are those of the events in order, so they grow as the events do. -/
theorem eventsAreNeverTakenBack : Obligations.EventsAreNeverTakenBack := by
  intro i s t he
  have h := (exec_cases he).events
  exact ⟨h, h.flatMap Event.sent⟩

/-- What no elementary effect writes: the configuration, the requests and the two timeouts. -/
def State.settings (s : State) : Cfg × List Request × Millis × Millis :=
  (s.cfg, s.requests, s.ackTimeoutMs, s.byteTimeoutMs)

theorem settings_eq_iff : t.settings = s.settings ↔ t.cfg = s.cfg ∧ t.requests = s.requests ∧
    t.ackTimeoutMs = s.ackTimeoutMs ∧ t.byteTimeoutMs = s.byteTimeoutMs := by
  simp only [State.settings, Prod.mk.injEq]

theorem Effect.settings (he : Effect s t) : t.settings = s.settings := by
  cases he with
  | arm hc => cases hc <;> rfl
  | _ => rfl

theorem Effects.settings (he : Effects s t) : t.settings = s.settings := by
  induction he with
  | refl => rfl
  | tail _ h ih => exact h.settings.trans ih

/-- Settles O54: no effect writes the settings, and of the operations that are no list of effects only the two SETs and RESET
write a timeout. -/
theorem onlyTheirOperationsWrite : Obligations.OnlyTheirOperationsWrite := by
  intro i s t he
  cases exec_cases he with
  | effects r hu _ hq =>
    obtain ⟨hc, hr, ha, hb⟩ := settings_eq_iff.1 hu.settings
    exact ⟨hc, hr, fun _ _ => ha, fun _ _ => hb, hq⟩
  | delivered f now _ => exact ⟨rfl, rfl, fun _ _ => rfl, fun _ _ => rfl, fun _ => rfl⟩
  | accepted c k p now _ _ => exact ⟨rfl, rfl, fun _ _ => rfl, fun _ _ => rfl, fun _ => rfl⟩
  | setAck v => exact ⟨rfl, rfl, fun h => absurd rfl (h v), fun _ _ => rfl, fun _ => rfl⟩
  | setByte v => exact ⟨rfl, rfl, fun _ _ => rfl, fun h => absurd rfl (h v), fun _ => rfl⟩
  | reset => exact ⟨rfl, rfl, fun _ h => absurd rfl h, fun _ h => absurd rfl h, fun _ => rfl⟩

/-! ### Which requests a step runs -/

/-- A step on a decoded operation is refused exactly when the environment cannot issue it: every operation completes. -/
theorem step_refused_iff (hl : s.cfg.legal = true) (hr : s.requests = .issue c :: rest)
    (hd : decode s.cfg c = .ok (i, more)) : (∃ r, step s = .refused r) ↔ issuable i = false := by
  constructor
  · rintro ⟨r, h⟩
    by_contra hi
    obtain ⟨t, ht⟩ := exec_total i (State.putBack more { s with requests := rest })
    rw [step_of_issuable hl hr hd (by simpa using hi), ht] at h
    cases h
  · exact fun hi => ⟨_, step_of_notIssuable hl hr hd hi⟩

/-- The sub-steps of RXBYTE (R98) and the pure operations of the codec (R9). -/
theorem issuable_eq_false_iff (i : Instr) : issuable i = false ↔
    (∃ now, i = .ctrlAck now) ∨ (∃ now, i = .ctrlNak now) ∨ (∃ now, i = .ctrlCan now) ∨ (∃ f now, i = .screen f now) ∨
      (∃ bs, i = .checksum bs) ∨ (∃ cmd k p, i = .encode cmd k p) ∨ (∃ bs, i = .decode bs) ∨ ∃ b, i = .classify b := by
  cases i <;> simp [issuable]

/-- Settles O60, from the list of what is not issuable and the step on each kind of decoded operation. -/
theorem subStepsAreNotIssuable : Obligations.SubStepsAreNotIssuable := by
  intro s c rest i more hl hr hd
  exact ⟨(step_refused_iff hl hr hd).trans (issuable_eq_false_iff i), step_of_notIssuable hl hr hd⟩

/-- Settles O58: what is left of the code stands before the other requests. -/
theorem stepRunsTheDecodedOperation : Obligations.StepRunsTheDecodedOperation := by
  intro s c rest i more hl hr hd hi
  rw [step_of_issuable hl hr hd hi]
  cases more <;> rfl

/-- Settles O59: one equation of `step` for each clause. -/
theorem stepsThatRunNoOperation : Obligations.StepsThatRunNoOperation := fun _ =>
  ⟨step_of_illegalCfg, step_of_silence, fun _ _ => step_of_arrive, fun _ _ _ => step_of_undecodable⟩

/-! ### The reset state -/

/-- Settles O44: the arrays of the reset state list no byte, and an unlisted byte reads `0x00`. -/
theorem resetStateIsTheResetColumn : Obligations.ResetStateIsTheResetColumn :=
  ⟨rfl, rfl, rfl, fun _ => Memory.read_nil, rfl, rfl, rfl, rfl, fun _ => Memory.read_nil, rfl, rfl, rfl, rfl, rfl, rfl,
    fun _ => Memory.read_nil, rfl⟩

/-- Settles O46: the default parameters are legal and each sub-block is as its clearing leaves it. -/
theorem resetStateMeetsTheInvariant : Obligations.ResetStateMeetsTheInvariant where
  cfgLegal := by decide
  rx := RxAssembly.idle_inv
  tx := Outstanding.cleared_inv _
  dd := DedupRecord.absent_inv

end Sys2Proof.Machine
end

section
/-! PROOFS. The operations that index outside one of the three byte arrays (R64, R222; log 8): the arms of RXBYTE, the
retransmission and SCREEN in the states that break R31, R37 or R42, and SCREEN of a payload that breaks R13. -/

namespace Sys2Proof.Machine

variable {s : State} {now : Time} {b : Byte} {f : Frame}

/-! ### Receive Assembler -/

/-- A byte before the deadline goes to the arm of the current state. -/
theorem rxByte_inTime (h : (now - s.rx.lastTime).toNat < s.byteTimeoutMs.toNat) : rxByte b now s = rxArm b now s := by
  rw [rxByte, rxTimeoutCheck_none (.inr h)]

/-- The payload arm takes the last byte when one remains (R136). -/
theorem nextField_sub_one (r : Byte) : nextField (r - 1#8) = if r = 1#8 then .waitChecksum else .waitPayload := by
  simp only [nextField, BitVec.sub_eq_iff_eq_add, BitVec.zero_add]

/-- A payload byte outside the 180 bytes of `rx_buf` is counted and not stored. -/
theorem exec_rxbyte_payload_outside (hs : s.rx.state = .waitPayload) (hc : 180 ≤ s.rx.count.toNat)
    (ht : (now - s.rx.lastTime).toNat < s.byteTimeoutMs.toNat) (b : Byte) : exec (.rxbyte b now) s = .next { s with
      rx := ⟨if s.rx.remaining = 1#8 then .waitChecksum else .waitPayload, s.rx.buf, s.rx.count + 1#8,
        s.rx.remaining - 1#8, now⟩
      result := .terminal false } := by
  simp only [exec, execRxbyte, rxByte_inTime ht, rxArm, hs, armPayload_eq, storeRx_out hc, nextField_sub_one]
  rfl

section Checksum

variable (hs : s.rx.state = .waitChecksum) (ht : (now - s.rx.lastTime).toNat < s.byteTimeoutMs.toNat)
include hs ht

theorem exec_rxbyte_checksum : exec (.rxbyte b now) s = finishByte (armChecksum b now s) := by
  simp only [exec, execRxbyte, rxByte_inTime ht, rxArm, hs]

/-- R138, whatever the number of stored bytes. -/
theorem exec_rxbyte_checksumFailed (hb : b ≠ checksum (loadRx s.rx.count.toNat s)) :
    exec (.rxbyte b now) s = .next { s with
      rx := RxAssembly.idle, events := s.events ++ [.evChecksumFailed, .txBytes [s.cfg.nak]], result := .terminal true } := by
  rw [exec_rxbyte_checksum hs ht, armChecksum, if_pos hb]
  simp [finishByte, finish, endChecksumFailed, emit, send, rxReset]

/-- R139, whatever the number of stored bytes. -/
theorem exec_rxbyte_badKind (hb : b = checksum (loadRx s.rx.count.toNat s))
    (hk : kindOf s.cfg (s.rx.buf.read 1) = none) : exec (.rxbyte b now) s = .next { s with
      rx := RxAssembly.idle, events := s.events ++ [.evBadKind (s.rx.buf.read 1)], result := .terminal true } := by
  rw [exec_rxbyte_checksum hs ht, armChecksum, if_neg (not_not.2 hb), hk]
  rfl

/-- R140, whatever the number of stored bytes: the frame goes to SCREEN with the assembler idle. -/
theorem exec_rxbyte_screens {k : Kind} (hb : b = checksum (loadRx s.rx.count.toNat s))
    (hk : kindOf s.cfg (s.rx.buf.read 1) = some k) : exec (.rxbyte b now) s = withResult (.terminal true)
      (exec (.screen ⟨k, s.rx.buf.read 2, (loadRx s.rx.count.toNat s).drop 3⟩ now) (rxReset s)) := by
  rw [exec_rxbyte_checksum hs ht, armChecksum, if_neg (not_not.2 hb), hk]
  rfl

end Checksum

theorem kindOf_eq_none {cfg : Cfg} (h1 : b ≠ cfg.kindReq) (h2 : b ≠ cfg.kindRsp) : kindOf cfg b = none := by
  rw [kindOf, if_neg h1, if_neg h2]

theorem kindOf_eq_some {cfg : Cfg} (hl : cfg.legal = true) {k : Kind} (h : b = kindCode cfg k) : kindOf cfg b = some k :=
  h ▸ kindOf_kindCode (legal_kinds hl) k

/-! ### Transmit/ACK Controller -/

theorem retryOrFail_of_lt (c : RetryCause) (hr : s.tx.retry.toNat < s.cfg.maxRetries.toNat) :
    retryOrFail now c s = resent c now s := by
  rcases retryOrFail_cases c now s with ⟨-, e⟩ | ⟨h, -⟩
  · exact e
  · omega

theorem exec_ctrlNak_resent (hv : s.tx.valid = true) (hr : s.tx.retry.toNat < s.cfg.maxRetries.toNat) :
    exec (.ctrlNak now) s = .next { resent .nak now s with result := .none } := by
  simp only [exec, execCtrlNak, ctrlNak, State.busy, hv, if_true, retryOrFail_of_lt _ hr]
  rfl

theorem exec_txchk_resent (hv : s.tx.valid = true) (hr : s.tx.retry.toNat < s.cfg.maxRetries.toNat)
    (ht : s.ackTimeoutMs.toNat ≤ (now - s.tx.sendTime).toNat) :
    exec (.txchk now) s = .next { resent .timeout now s with result := .none } := by
  simp only [exec, execTxchk, txchk, ackDeadline_iff.2 ⟨hv, ht⟩, if_true, retryOrFail_of_lt _ hr]
  rfl

/-! ### Duplicate Suppression -/

theorem exec_screen_suppresses (hm : matchesRecord f s) (hf : s.fresh now = true) :
    exec (.screen f now) s = .next { suppressed s with result := .none } := by
  simp only [exec, execScreen, screen_suppresses hm hf]
  rfl

/-- A delivered frame of any length: the record holds its first 177 bytes (R191; log 8). -/
theorem exec_screen_delivers (h : ¬ (matchesRecord f s ∧ s.fresh now = true)) :
    ∃ m, exec (.screen f now) s = .next { s with
        dd := ⟨true, f.command, BitVec.ofNat 8 f.payload.length, m, now⟩
        events := s.events ++ [.deliver f, .txBytes [s.cfg.ack], .evFrameReceived]
        result := .none } ∧
      ∀ a, m.read a = if a < min f.payload.length 177 then f.payload.getD a 0#8 else 0#8 := by
  refine ⟨(delivered f now s).dd.payload, ?_, read_delivered f now s⟩
  simp only [exec, execScreen, screen_delivers h]
  rfl

/-- The bytes read from the record are compared byte for byte, so equal bytes have equal length (R190). -/
theorem matchesRecord_iff : matchesRecord f s ↔
    s.dd.valid = true ∧ s.dd.cmd = f.command ∧ loadDd s.dd.plen.toNat s = f.payload :=
  ⟨fun ⟨hv, hc, _, hp⟩ => ⟨hv, hc, hp⟩, fun ⟨hv, hc, hp⟩ => ⟨hv, hc, by rw [← hp, length_loadDd], hp⟩⟩

/-- Settles O50: each byte list read is what `loadRx`, `loadTx` or `loadDd` answers, whose first bytes are the array's. -/
theorem indexOutsideABufferCompletes : Obligations.IndexOutsideABufferCompletes := by
  intro s now
  refine ⟨fun b hs hc ht => exec_rxbyte_payload_outside hs hc ht b, fun hs hc ht => ?_, fun hv hr hn => ?_, fun hn => ?_,
    fun f hn hf => ?_⟩
  · refine ⟨loadRx s.rx.count.toNat s, length_loadRx _ _,
      (take_loadRx (by omega)).trans (Memory.readBytes_eq_map _ _), fun b => ⟨?_, ?_, ?_, ?_⟩⟩
    · exact exec_rxbyte_checksumFailed hs ht
    · exact fun hb h1 h2 => exec_rxbyte_badKind hs ht hb (kindOf_eq_none h1 h2)
    · exact fun hb hk => exec_rxbyte_screens hs ht hb (if_pos hk)
    · exact fun hb hl hk => exec_rxbyte_screens hs ht hb (kindOf_eq_some hl (k := .response) hk)
  · exact ⟨loadTx s.tx.len.toNat s, length_loadTx _ _, (take_loadTx (by omega)).trans (Memory.readBytes_eq_map _ _),
      exec_ctrlNak_resent hv hr, exec_txchk_resent hv hr⟩
  · refine ⟨loadDd s.dd.plen.toNat s, length_loadDd _ _, (take_loadDd (by omega)).trans (Memory.readBytes_eq_map _ _),
      fun f => ⟨fun ⟨hv, hc, hp, hw⟩ => ?_, fun h => exec_screen_delivers fun ⟨hm, hw⟩ => ?_⟩⟩
    · exact exec_screen_suppresses (matchesRecord_iff.2 ⟨hv, hc, hp⟩) (fresh_iff.2 hw)
    · obtain ⟨hv, hc, hp⟩ := matchesRecord_iff.1 hm
      exact h ⟨hv, hc, hp, fresh_iff.1 hw⟩
  · have hm : ¬ matchesRecord f s := fun ⟨_, _, hl, _⟩ => by omega
    simpa only [Nat.min_eq_right (Nat.le_of_lt hf)] using exec_screen_delivers fun h => hm h.1

end Sys2Proof.Machine
end

section
/-! PROOFS. Every operation completes and a well-formed one keeps the invariant (R222, R31, R37, R42); and the frame of each
operation that belongs to one sub-block: the other two sub-blocks stay as they are (R43, R171, R232). -/

namespace Sys2Proof.Machine

/-- Settles O48: every operation is total, and each thing a well-formed one can do keeps the invariant. -/
theorem everyOperationCompletes : Obligations.EveryOperationCompletes := fun i s =>
  have ⟨t, ht⟩ := exec_total i s
  ⟨t, ht, (exec_cases ht).inv⟩

/-! ### Frames of the Transmit/ACK Controller: the assembler and the record stay -/

theorem execTransmit_frame {s t : State} {c : Byte} {k : Kind} {p : List Byte} {now : Time}
    (h : execTransmit c k p now s = .next t) : t.rx = s.rx ∧ t.dd = s.dd := by
  rcases execTransmit_cases c k p now s with ⟨-, e⟩ | ⟨-, -, e⟩ | ⟨-, -, e⟩ <;> cases e.symm.trans h <;> exact ⟨rfl, rfl⟩

theorem retryOrFail_frame (c : RetryCause) (now : Time) (s : State) :
    (retryOrFail now c s).rx = s.rx ∧ (retryOrFail now c s).dd = s.dd := by
  rcases retryOrFail_cases c now s with ⟨-, e⟩ | ⟨-, e⟩ <;> rw [e] <;> exact ⟨rfl, rfl⟩

theorem ctrlAck_frame (now : Time) (s : State) : (ctrlAck now s).rx = s.rx ∧ (ctrlAck now s).dd = s.dd := by
  unfold ctrlAck; split <;> exact ⟨rfl, rfl⟩

theorem ctrlNak_frame (now : Time) (s : State) : (ctrlNak now s).rx = s.rx ∧ (ctrlNak now s).dd = s.dd := by
  unfold ctrlNak; split
  · exact retryOrFail_frame .nak now s
  · exact ⟨rfl, rfl⟩

theorem ctrlCan_frame (now : Time) (s : State) : (ctrlCan now s).rx = s.rx ∧ (ctrlCan now s).dd = s.dd := by
  unfold ctrlCan; split <;> exact ⟨rfl, rfl⟩

theorem txchk_frame (now : Time) (s : State) : (txchk now s).rx = s.rx ∧ (txchk now s).dd = s.dd := by
  unfold txchk; split
  · exact retryOrFail_frame .timeout now s
  · exact ⟨rfl, rfl⟩

/-! ### Frame of the byte-deadline test: the transmission and the record stay -/

theorem rxTimeoutCheck_frame (now : Time) (s : State) :
    (rxTimeoutCheck now s).tx = s.tx ∧ (rxTimeoutCheck now s).dd = s.dd := by
  rcases rxTimeoutCheck_cases now s with ⟨-, e⟩ | ⟨-, e⟩ <;> rw [e] <;> exact ⟨rfl, rfl⟩

/-! ### Frames of Duplicate Suppression: the assembler and the transmission stay -/

theorem screen_frame (f : Frame) (now : Time) (s : State) : (screen f now s).rx = s.rx ∧ (screen f now s).tx = s.tx := by
  rcases screen_cases f now s with ⟨-, -, e⟩ | ⟨-, e⟩ <;> rw [e] <;> exact ⟨rfl, rfl⟩

theorem ddchk_frame (now : Time) (s : State) : (ddchk now s).rx = s.rx ∧ (ddchk now s).tx = s.tx := by
  unfold ddchk; split <;> exact ⟨rfl, rfl⟩

/-- Settles O55: the frame of each operation; ending it writes the result only. -/
theorem subBlocksAreTouchedByTheirOwnersOnly : Obligations.SubBlocksAreTouchedByTheirOwnersOnly := by
  intro s t now
  refine ⟨fun _ _ _ => execTransmit_frame, ?ctrlAck, ?ctrlNak, ?ctrlCan, ?txchk, ?rxidle, fun f => ?screen, ?ddchk⟩ <;>
    rintro ⟨⟩
  case ctrlAck => exact ctrlAck_frame now s
  case ctrlNak => exact ctrlNak_frame now s
  case ctrlCan => exact ctrlCan_frame now s
  case txchk => exact txchk_frame now s
  case rxidle => exact rxTimeoutCheck_frame now s
  case screen => exact screen_frame f now s
  case ddchk => exact ddchk_frame now s

end Sys2Proof.Machine
end

section
/-! PROOFS. The encodings (R80 to R99): what the decoder reads from an encoded operation, from the bytes of a unit followed by
other bytes, from any bytes, and from the eight codes of the host command port. -/

namespace Sys2Proof

variable {cfg : Cfg} {i j : Instr} {bs rest : List Byte} {now : Time} {p : HostPort}

/-! ### Units on the wire -/

theorem wellFormed_badLength_iff {l : Byte} : (DataUnit.badLength l).wellFormed = true ↔ legalLength l = false := by
  simp [DataUnit.wellFormed]

theorem wellFormed_stalled_cons_iff {l : Byte} :
    (DataUnit.stalled (l :: rest)).wellFormed = true ↔ legalLength l = true ∧ rest.length < l.toNat := by
  simp [DataUnit.wellFormed]

/-- An encoded unit reads back from its bytes, whatever follows them; a stalled unit only at the end of what is presented. -/
theorem decodeWire_of_encode (hl : cfg.legal = true) (hw : i.wellFormed cfg = true)
    (hs : (∀ tail at', i ≠ .data (.stalled tail) at') ∨ rest = []) (he : encode cfg i = .wire bs now) :
    decodeWire cfg (bs ++ rest) now = .ok (i, rest) := by
  cases i with
  | data u =>
    cases he
    have hu : (∀ t, u ≠ .stalled t) ∨ rest = [] := hs.imp_left fun h t e => h t now (e ▸ rfl)
    simp only [List.cons_append, decodeWire, classify_sof, decodeTail_encodeTail hw hu]
  | ack => cases he; simp only [List.cons_append, List.nil_append, decodeWire, classify_ack hl]
  | nak => cases he; simp only [List.cons_append, List.nil_append, decodeWire, classify_nak hl]
  | can => cases he; simp only [List.cons_append, List.nil_append, decodeWire, classify_can hl]
  | noise b =>
    cases he
    have hb : classify cfg b = .noise := eq_of_beq hw
    simp only [List.cons_append, List.nil_append, decodeWire, hb]
  | _ => cases he

/-- Three or more bytes are a kind byte, a command byte, a payload and a checksum byte. -/
theorem exists_fields (h : 3 ≤ bs.length) : ∃ k c p x, bs = k :: c :: p ++ [x] := by
  match bs, h with
  | k :: c :: y :: ys, _ =>
    exact ⟨k, c, (y :: ys).dropLast, (y :: ys).getLast nofun, by
      rw [List.cons_append, List.cons_append, List.dropLast_concat_getLast]⟩

/-- A legal length byte and as many bytes as it says are the bytes of a frame unit (R81). -/
theorem exists_frame {l : Byte} (hl : legalLength l = true) (hn : bs.length = l.toNat) :
    ∃ k c p x, l :: bs = encodeTail (.frame k c p x) ∧ p.length ≤ maxPayload := by
  obtain ⟨h3, h180⟩ := Machine.legalLength_iff.1 hl
  obtain ⟨k, c, p, x, rfl⟩ := exists_fields (hn ▸ h3)
  have hp : p.length + 3 = l.toNat := by simpa using hn
  exact ⟨k, c, p, x, by simp [encodeTail, lenByte, hp], show p.length ≤ 177 by omega⟩

/-- Whatever follows `SOF` is the bytes of a well-formed unit and the bytes after it; after a stalled unit there is none (R81,
R89, R90). -/
theorem exists_unit (bs : List Byte) : ∃ u rest, bs = encodeTail u ++ rest ∧ u.wellFormed = true ∧
    ((∀ t, u ≠ .stalled t) ∨ rest = []) := by
  match bs with
  | [] => exact ⟨.stalled [], [], rfl, rfl, .inr rfl⟩
  | l :: r =>
    cases hl : legalLength l with
    | false => exact ⟨.badLength l, r, rfl, wellFormed_badLength_iff.2 hl, .inl nofun⟩
    | true =>
      by_cases hn : l.toNat ≤ r.length
      · obtain ⟨k, c, p, x, e, hp⟩ := exists_frame hl (List.length_take_of_le hn)
        refine ⟨.frame k c p x, r.drop l.toNat, ?_, decide_eq_true hp, .inl nofun⟩
        rw [← e, List.cons_append, List.take_append_drop]
      · exact ⟨.stalled (l :: r), [], (List.append_nil _).symm,
          wellFormed_stalled_cons_iff.2 ⟨hl, Nat.lt_of_not_le hn⟩, .inr rfl⟩

/-- Settles O3: reading undoes the encoder, with any bytes after those of the unit. -/
theorem bytesAfterAUnitDoNotChangeIt : Obligations.BytesAfterAUnitDoNotChangeIt :=
  fun _ _ _ _ _ hl hw hs he => decodeWire_of_encode hl hw (.inl hs) he

/-- Settles O4: the bytes presented are those of a well-formed unit and the bytes after it, and such bytes read as that unit. -/
theorem wireUnitsAreTheBytesRead : Obligations.WireUnitsAreTheBytesRead := by
  intro cfg bytes now hne hl
  suffices h : ∃ i bs rest, bytes = bs ++ rest ∧ encode cfg i = .wire bs now ∧ i.wellFormed cfg = true ∧
      ((∀ tail at', i ≠ .data (.stalled tail) at') ∨ rest = []) by
    obtain ⟨i, bs, rest, rfl, he, hw, hs⟩ := h
    exact ⟨i, rest, bs, decodeWire_of_encode hl hw hs he, hw, he, rfl⟩
  match bytes, hne with
  | b :: bs, _ =>
    obtain ⟨-, rfl⟩ | ⟨-, rfl⟩ | ⟨-, rfl⟩ | ⟨-, rfl⟩ | ⟨hb, -⟩ := classify_cases cfg b
    · obtain ⟨u, rest, rfl, hu, hs⟩ := exists_unit bs
      exact ⟨.data u now, cfg.sof :: encodeTail u, rest, rfl, rfl, hu, hs.imp_left fun h t _ e => by cases e; exact h t rfl⟩
    · exact ⟨.ack now, [cfg.ack], bs, rfl, rfl, rfl, .inl nofun⟩
    · exact ⟨.nak now, [cfg.nak], bs, rfl, rfl, rfl, .inl nofun⟩
    · exact ⟨.can now, [cfg.can], bs, rfl, rfl, rfl, .inl nofun⟩
    · exact ⟨.noise b now, [b], bs, rfl, rfl, by rw [Instr.wellFormed, hb]; rfl, .inl nofun⟩

/-! ### The host command port, the reset input and the named operations -/

@[simp] theorem kindOfBit_kindBit (k : Kind) : kindOfBit (kindBit k) = k := by cases k <;> rfl

/-- TRANSMIT reads the first `plen` payload bytes (R96). -/
theorem decodeHost_transmit (h : p.op = 1#3) (hn : p.plen.toNat ≤ p.payload.length) :
    decodeHost p = .ok (.transmit p.command (kindOfBit p.kind) (p.payload.take p.plen.toNat) p.now) := by
  rw [decodeHost, h, if_neg (by decide), if_pos rfl, if_neg (Nat.not_lt.2 hn)]

theorem decodeHost_missingPayload (h : p.op = 1#3) (hn : p.payload.length < p.plen.toNat) :
    decodeHost p = .error .missingPayload := by
  rw [decodeHost, h, if_neg (by decide), if_pos rfl, if_pos hn]

/-- An operation of the host command port reads back from its code and operands (R95, R96). -/
theorem decodeHost_of_encode (hw : i.wellFormed cfg = true) (he : encode cfg i = .host p) : decodeHost p = .ok i := by
  cases i with
  | transmit c k pl =>
    cases he
    have hn : (lenByte pl.length).toNat = pl.length := lenByte_toNat (Nat.lt_succ_of_le (of_decide_eq_true hw))
    refine (decodeHost_transmit rfl (Nat.le_of_eq hn)).trans ?_
    simp only [hn, List.take_length, kindOfBit_kindBit]
  | poll | getAckTimeout | setAckTimeout | getByteTimeout | setByteTimeout | reservedOp6 | reservedOp7 => cases he; rfl
  | _ => cases he

theorem eq_reset_of_encode (he : encode cfg i = .resetInput) : i = .reset := by
  cases i <;> cases he
  rfl

theorem eq_of_encode_named (he : encode cfg i = .named j) : j = i ∧ i.format = .internal := by
  cases i <;> cases he <;> exact ⟨rfl, rfl⟩

theorem decodeNamed_of_encode (hw : i.wellFormed cfg = true) (he : encode cfg i = .named j) :
    decodeNamed cfg j = .ok i := by
  obtain ⟨rfl, hf⟩ := eq_of_encode_named he
  rw [decodeNamed, if_neg (not_not.2 hf), if_pos hw]

/-- Settles O2, by where the encoding is presented. -/
theorem decodeOfEncodeIsTheInstruction : Obligations.DecodeOfEncodeIsTheInstruction := by
  intro cfg i hl hw
  match he : encode cfg i with
  | .wire bs now =>
    have hd := decodeWire_of_encode hl hw (.inr rfl) he
    rw [List.append_nil] at hd
    rw [decode, hd]; rfl
  | .host p => rw [decode, decodeHost_of_encode hw he]; rfl
  | .resetInput => rw [eq_reset_of_encode he]; rfl
  | .named j => rw [decode, decodeNamed_of_encode hw he]; rfl

/-- Settles O5: the chain of tests on the code has one branch for each. -/
theorem hostCodesSelectTheirOperations : Obligations.HostCodesSelectTheirOperations := by
  intro cfg p
  refine ⟨fun h => ?_, fun h hn => ?transmit, fun h hn => ?missing, fun h => ?_, fun h => ?_, fun h => ?_, fun h => ?_,
    fun h => ?_, fun h => ?_⟩
  case transmit => rw [decode, decodeHost_transmit h hn]; rfl
  case missing => rw [decode, decodeHost_missingPayload h hn]; rfl
  all_goals rw [decode, decodeHost, h]; rfl

/-- Settles O1, by evaluating the decoder on each word. -/
theorem tableWordsDecodeToTheirRows : Obligations.TableWordsDecodeToTheirRows := by
  refine ⟨?ack, ?nak, ?can, ?noise, ?data, ?poll, ?setByteTimeout, ?reserved⟩ <;> decide

end Sys2Proof
end

section
/-! PROOFS. What CORE puts on the wire (R91): every elementary effect, and so every operation, sends frames of the codec, ACK and
NAK only. -/

namespace Sys2Proof.Machine

variable {s t u : State} {i : Instr} {now : Time} {b : Byte} {term : Bool} {cfg : Cfg}

/-- An event that writes to the TX byte stream writes ACK, NAK or a frame that DECODE accepts. -/
def Event.SendsOnlyUnits (cfg : Cfg) : Event → Prop
  | .txBytes bs => bs = [cfg.ack] ∨ bs = [cfg.nak] ∨ ∃ f, decodeFrame cfg bs = .frame f
  | _ => True

/-- The transmit buffer holds a frame while a transmission is outstanding (R37). -/
theorem Outstanding.Inv.decodes (h : s.tx.Inv s.cfg) (hv : s.tx.valid = true) :
    ∃ f, decodeFrame s.cfg (loadTx s.tx.len.toNat s) = .frame f := by
  have hf := h.encoded hv
  rw [← loadTx_eq h.lenMax] at hf
  cases hd : decodeFrame s.cfg (loadTx s.tx.len.toNat s) with
  | frame f => exact ⟨f, rfl⟩
  | checksumError | framingError => rw [hd] at hf; cases hf

/-- The events between two states write units only. -/
def SendsOnlyUnits (s t : State) : Prop := ∃ es, t.events = s.events ++ es ∧ ∀ e ∈ es, e.SendsOnlyUnits s.cfg

theorem SendsOnlyUnits.of_events_eq (h : t.events = s.events) : SendsOnlyUnits s t :=
  ⟨[], by rw [h, List.append_nil], nofun⟩

theorem SendsOnlyUnits.trans (h₁ : SendsOnlyUnits s t) (hc : t.cfg = s.cfg) (h₂ : SendsOnlyUnits t u) :
    SendsOnlyUnits s u := by
  obtain ⟨es₁, e₁, hs₁⟩ := h₁
  obtain ⟨es₂, e₂, hs₂⟩ := h₂
  refine ⟨es₁ ++ es₂, by rw [e₂, e₁, List.append_assoc], fun e he => ?_⟩
  exact (List.mem_append.1 he).elim (hs₁ e) fun h => hc ▸ hs₂ e h

theorem resent_sendsOnlyUnits (h : s.tx.Inv s.cfg) (hv : s.tx.valid = true) (c : RetryCause) (now : Time) :
    SendsOnlyUnits s (resent c now s) :=
  ⟨_, rfl, by simp [Event.SendsOnlyUnits, h.decodes hv]⟩

theorem suppressed_sendsOnlyUnits (s : State) : SendsOnlyUnits s (suppressed s) :=
  ⟨_, rfl, by simp [Event.SendsOnlyUnits]⟩

theorem delivered_sendsOnlyUnits (f : Frame) (now : Time) (s : State) : SendsOnlyUnits s (delivered f now s) :=
  ⟨_, rfl, by simp [Event.SendsOnlyUnits]⟩

theorem ArmCase.sendsOnlyUnits (hc : ArmCase b now s t term) (h : s.Inv) : SendsOnlyUnits s t := by
  cases hc with
  | leadSof | length | kind | command | payload => exact .of_events_eq rfl
  | stray | acked | naked | cancelled | noise | badLength | checksumFailed | badKind =>
    exact ⟨_, rfl, by simp [Event.SendsOnlyUnits]⟩
  | resent _ _ hv _ => exact resent_sendsOnlyUnits h.tx hv .nak now
  | suppress => exact suppressed_sendsOnlyUnits s
  | deliver f => exact delivered_sendsOnlyUnits f now s

theorem Effect.sendsOnlyUnits (he : Effect s t) (h : s.Inv) : SendsOnlyUnits s t := by
  cases he with
  | arm hc => exact hc.sendsOnlyUnits h
  | recordEnd | popped => exact .of_events_eq rfl
  | rxTimeout | stray | acked | cancelled | failed => exact ⟨_, rfl, by simp [Event.SendsOnlyUnits]⟩
  | resent c now hv _ => exact resent_sendsOnlyUnits h.tx hv c now
  | suppressed => exact suppressed_sendsOnlyUnits s

theorem Effects.sendsOnlyUnits (he : Effects s t) (h : s.Inv) : SendsOnlyUnits s t := by
  induction he with
  | refl => exact .of_events_eq rfl
  | tail h₁ h₂ ih =>
    have hc := (settings_eq_iff.1 (Effects.settings h₁)).1
    exact ih.trans hc (h₂.sendsOnlyUnits (Effects.inv h₁ h))

/-- An accepted TRANSMIT sends what DECODE gives back (R114, R160). -/
theorem accepted_sendsOnlyUnits (hl : s.cfg.legal = true) (c : Byte) (k : Kind) {p : List Byte} (hp : p.length ≤ 177)
    (now : Time) : SendsOnlyUnits s (accepted (frameBytes s.cfg c k p) now s) :=
  ⟨_, rfl, by simp [Event.SendsOnlyUnits, decodeFrame_frameBytes (legal_kinds hl) c k p hp]⟩

theorem ExecCase.sendsOnlyUnits (hc : ExecCase s i t) (h : s.Inv) : SendsOnlyUnits s t := by
  cases hc with
  | effects r he _ _ => exact he.sendsOnlyUnits h
  | delivered f now _ => exact delivered_sendsOnlyUnits f now s
  | accepted c k p now _ hp => exact accepted_sendsOnlyUnits h.cfgLegal c k hp now
  | setAck | setByte | reset => exact .of_events_eq rfl

/-- Settles O51: everything an operation can do sends units only. -/
theorem coreSendsOnlyFramesAcksAndNaks : Obligations.CoreSendsOnlyFramesAcksAndNaks := by
  intro i s t h _ he
  obtain ⟨es, hes, hu⟩ := (exec_cases he).sendsOnlyUnits h
  exact ⟨es, hes, fun _ hb => hu _ hb⟩

end Sys2Proof.Machine
end

section
/-! PROOFS. Operations as runs of RXBYTE: a wire unit is the RXBYTEs of its bytes (R80, R88, R89, R118), and POLL is DDCHK, the
RXBYTEs of the queue, RXIDLE and TXCHK (R98, R200, R201). The result of one operation plays no part in the next. -/

namespace Sys2Proof.Machine

variable (now : Time) (b : Byte) (x : Result) (s : State)

/-! ### The last result plays no part -/

/-- An operation that does the same in another environment, and leaves its own as it is, does the same after another result. -/
theorem result_update_comm {s : State} {x : Result} {g : State → State}
    (hg : g (s.withEnv s.rxq x s.requests) = (g s).withEnv s.rxq x s.requests) (hq : (g s).rxq = s.rxq)
    (he : Effects s (g s)) : g { s with result := x } = { g s with result := x } := by
  obtain ⟨-, hr, -⟩ := settings_eq_iff.1 he.settings
  rw [State.withEnv, State.withEnv, ← hq, ← hr] at hg
  rw [← hg, hq, hr]

theorem rxByte_of_result : rxByte b now { s with result := x } =
    ({ (rxByte b now s).1 with result := x }, (rxByte b now s).2) := by
  have h := rxByte_withEnv s.rxq x s.requests s now b
  have h₁ : (rxByte b now { s with result := x }).1 = { (rxByte b now s).1 with result := x } :=
    result_update_comm (g := fun s => (rxByte b now s).1) (congrArg Prod.fst h) (rxByte_env s now b).1 (rxByte_effects b now s)
  have h₂ := congrArg Prod.snd h
  exact Prod.ext h₁ h₂

theorem exec_rxbyte_of_result : exec (.rxbyte b now) { s with result := x } = exec (.rxbyte b now) s := by
  simp only [exec, execRxbyte, rxByte_of_result]
  rfl

theorem exec_rxidle_of_result : exec (.rxidle now) { s with result := x } = exec (.rxidle now) s := by
  have h := result_update_comm (rxTimeoutCheck_withEnv s.rxq x s.requests s now) (rxTimeoutCheck_rxq now s)
    (rxTimeoutCheck_effects now s)
  simp only [exec, execRxidle, h]
  rfl

theorem exec_txchk_of_result : exec (.txchk now) { s with result := x } = exec (.txchk now) s := by
  have h := result_update_comm (txchk_withEnv s.rxq x s.requests s now) (txchk_rxq now s) (txchk_effects now s)
  simp only [exec, execTxchk, h]
  rfl

/-! ### Wire units -/

/-- RXBYTEs after a byte: the run ends as the list of bytes does. -/
theorem runOps_rxbyte (bs : List Byte) (r : State × Bool) :
    runOps (bs.map fun b => .rxbyte b now) { r.1 with result := .terminal r.2 } = finishByte (rxBytes now bs r) := by
  induction bs generalizing r with
  | nil => rfl
  | cons b bs ih =>
    rw [List.map_cons, runOps, exec_rxbyte_of_result]
    exact ih (rxByte b now r.1)

/-- Settles O21: the first byte gives the first terminal flag, and the bytes after it go on from there. -/
theorem wireUnitsAreTheirBytes : Obligations.WireUnitsAreTheirBytes := by
  intro s now
  refine ⟨fun u => ?_, rfl, rfl, rfl, fun _ => rfl⟩
  exact (runOps_rxbyte now (encodeTail u) (rxByte s.cfg.sof now s)).symm

/-! ### POLL -/

/-- The bytes of the queue as RXBYTEs do what the feed loop does, whatever the result before them. -/
theorem feedOps_eq (q : List Byte) (hq : s.rxq = q) :
    ∃ r, feedOps now q { s with result := x } = .next { feedLoop now q s with result := r } := by
  induction q generalizing s x with
  | nil =>
    refine ⟨x, ?_⟩
    rw [feedOps, feedLoop, ← hq]
  | cons b q ih =>
    have he : exec (.rxbyte b now) { s with rxq := q, result := x } = finishByte (rxByte b now { s with rxq := q }) :=
      exec_rxbyte_of_result now b x { s with rxq := q }
    obtain ⟨hq', -⟩ := rxByte_env { s with rxq := q } now b
    rw [feedOps, feedLoop, he]
    cases ht : (rxByte b now { s with rxq := q }).2 with
    | true => exact ⟨.terminal true, by simp [finishByte, finish, ht]⟩
    | false =>
      obtain ⟨r, hr⟩ := ih (.terminal false) (rxByte b now { s with rxq := q }).1 hq'
      exact ⟨r, by simp [finishByte, finish, ht, hr]⟩

/-- The operations POLL expands into (R98) do its steps. -/
theorem pollOps_eq : pollOps now s = .next { pollSteps now s with result := .none } := by
  obtain ⟨r, hr⟩ := feedOps_eq now .none (ddchk now s) _ rfl
  calc pollOps now s
      = thenOp (thenOp (feedOps now (ddchk now s).rxq { ddchk now s with result := .none }) (.rxidle now))
          (.txchk now) := rfl
    _ = thenOp (exec (.rxidle now) { feedLoop now (ddchk now s).rxq (ddchk now s) with result := r }) (.txchk now) := by
        rw [hr]; rfl
    _ = exec (.txchk now)
          { rxTimeoutCheck now (feedLoop now (ddchk now s).rxq (ddchk now s)) with result := .none } := by
        rw [exec_rxidle_of_result]; rfl
    _ = .next { pollSteps now s with result := .none } := by rw [exec_txchk_of_result]; rfl

/-- Settles O36: the result is computed from the events, which the steps share. -/
theorem pollIsItsSteps : Obligations.PollIsItsSteps := by
  intro s now
  rw [pollOps_eq]
  rfl

end Sys2Proof.Machine
end

section
/-! PROOFS. The units received in `WaitSof`: the control symbols and noise (R88, R132, R161 to R165), and the units of `SOF` that
are no whole frame (R90, R133 to R136). -/

namespace Sys2Proof.Machine

variable {s : State} {now : Time} {b : Byte}

/-! ### The control symbols, with and without an Outstanding Transmission -/

theorem ctrlAck_of_busy (hv : s.tx.valid = true) : ctrlAck now s =
    { s with tx := Outstanding.cleared, events := s.events ++ [.txAcked, .txDone .success] } := by
  simp [ctrlAck, State.busy, hv, emit, txClear]

theorem ctrlAck_of_stray (hv : s.tx.valid = false) :
    ctrlAck now s = { s with events := s.events ++ [.evStray .ack] } := by
  simp [ctrlAck, State.busy, hv, emit]

theorem ctrlNak_of_stray (hv : s.tx.valid = false) :
    ctrlNak now s = { s with events := s.events ++ [.evStray .nak] } := by
  simp [ctrlNak, State.busy, hv, emit]

theorem ctrlCan_of_busy (hv : s.tx.valid = true) : ctrlCan now s =
    { s with tx := Outstanding.cleared, events := s.events ++ [.txDone .failCancelled] } := by
  simp [ctrlCan, State.busy, hv, emit, txClear]

theorem ctrlCan_of_stray (hv : s.tx.valid = false) :
    ctrlCan now s = { s with events := s.events ++ [.evStray .can] } := by
  simp [ctrlCan, State.busy, hv, emit]

theorem ctrlNak_of_busy (hv : s.tx.valid = true) : ctrlNak now s = retryOrFail now .nak s := by
  simp [ctrlNak, State.busy, hv]

theorem retryOrFail_of_le (c : RetryCause) (hr : s.cfg.maxRetries.toNat ≤ s.tx.retry.toNat) : retryOrFail now c s =
    { s with tx := Outstanding.cleared, events := s.events ++ [.txDone (failStatus c)] } := by
  rcases retryOrFail_cases c now s with ⟨h, -⟩ | ⟨-, e⟩
  · omega
  · exact e

/-- A retransmission sends the bytes of the transmit buffer as they are (R164), as long as they lie in it. -/
theorem resent_eq (c : RetryCause) (now : Time) (hn : s.tx.len.toNat ≤ 182) : resent c now s = { s with
    tx := { s.tx with retry := s.tx.retry + 1#8, sendTime := now }
    events := s.events ++ [.txBytes ((List.range s.tx.len.toNat).map s.tx.buf.read), .evRetransmit c] } := by
  rw [resent, loadTx_eq hn, Memory.readBytes_eq_map]

/-! ### The one-byte units in `WaitSof` -/

section WaitSof

variable (hl : s.cfg.legal = true) (hs : s.rx.state = .waitSof)
include hs

theorem exec_noise_of_waitSof (hb : classify s.cfg b = .noise) :
    exec (.noise b now) s = .next { s with events := s.events ++ [.evNoise b], result := .terminal false } := by
  simp only [exec, execNoise, rxByte_sof _ now hs, armSof, hb]
  rfl

include hl

theorem exec_ack_of_waitSof : exec (.ack now) s = finish (.terminal false) (ctrlAck now s) := by
  simp only [exec, execAck, rxByte_sof _ now hs, armSof, classify_ack hl, finishByte]

theorem exec_nak_of_waitSof : exec (.nak now) s = finish (.terminal false) (ctrlNak now s) := by
  simp only [exec, execNak, rxByte_sof _ now hs, armSof, classify_nak hl, finishByte]

theorem exec_can_of_waitSof : exec (.can now) s = finish (.terminal false) (ctrlCan now s) := by
  simp only [exec, execCan, rxByte_sof _ now hs, armSof, classify_can hl, finishByte]

end WaitSof

/-- Settles O22: the lead byte selects the operation, and each operation has one equation with and one without a transmission. -/
theorem oneByteUnitsInTheIdleState : Obligations.OneByteUnitsInTheIdleState := by
  intro s now hl hs
  rw [exec_ack_of_waitSof hl hs, exec_nak_of_waitSof hl hs, exec_can_of_waitSof hl hs]
  refine ⟨fun hv => ?_, fun hv => ?_, fun hv hr hn => ?_, fun hv hr => ?_, fun hv => ?_, fun hv => ?_, fun hv => ?_,
    fun b hb => ?_⟩
  · rw [ctrlAck_of_busy hv]; rfl
  · rw [ctrlAck_of_stray hv]; rfl
  · rw [ctrlNak_of_busy hv, retryOrFail_of_lt _ hr, resent_eq _ _ hn]; rfl
  · rw [ctrlNak_of_busy hv, retryOrFail_of_le _ hr]; rfl
  · rw [ctrlNak_of_stray hv]; rfl
  · rw [ctrlCan_of_busy hv]; rfl
  · rw [ctrlCan_of_stray hv]; rfl
  · exact exec_noise_of_waitSof hs (eq_of_beq hb)

/-! ### The units of `SOF` that are no whole frame -/

theorem nextField_ne_waitSof (r : Byte) : nextField r ≠ .waitSof := by
  rcases nextField_cases r with ⟨-, e⟩ | ⟨-, e⟩ <;> rw [e] <;> nofun

/-- An array written from its start reads as the list written, and `0x00` above it. -/
theorem read_writeBytes_nil (bs : List Byte) (a : Nat) : (Memory.writeBytes [] 0 bs).read a = bs.getD a 0#8 := by
  rw [Memory.read_writeBytes, Memory.read_nil, Nat.zero_add, Nat.sub_zero]
  split
  · rfl
  · exact (List.getD_eq_default _ _ (by omega)).symm

section Unfinished

variable (hi : s.Inv) (hs : s.rx.state = .waitSof)
include hi hs

/-- `SOF` starts a frame (R132). -/
theorem rxByte_lead : rxByte s.cfg.sof now s = ({ s with rx := ⟨.waitLength, [], 0#8, 0#8, now⟩ }, false) := by
  rw [rxByte_sof _ now hs]
  simp [armSof, hi.rx.sof hs, RxAssembly.idle]

variable (hT : s.byteTimeoutMs ≠ 0#16)
include hT

/-- `SOF` and an illegal length byte (R133): the assembler is idle again. -/
theorem rxBytes_badLength {l : Byte} (hl : legalLength l = false) :
    rxBytes now [s.cfg.sof, l] (s, false) = ({ s with events := s.events ++ [.evBadLength l] }, true) := by
  simp only [rxBytes, rxByte_lead hi hs]
  rw [rxByte, rxTimeoutCheck_same hT]
  simp [rxArm, armLength, hl, rxReset, emit, ← hi.rx.sof hs]

/-- `SOF`, a legal length byte and the kind byte (R134). -/
theorem rxBytes_kind {l : Byte} (hl : legalLength l = true) (k : Byte) :
    rxBytes now [s.cfg.sof, l, k] (s, false) =
      ({ s with rx := ⟨.waitCommand, Memory.writeBytes [] 0 [l, k], 2#8, l - 3#8, now⟩ }, false) := by
  have h := rxBytes_append now [s.cfg.sof, l] [k] (s, false)
  rw [rxBytes_length hi hs hT l hl] at h
  refine h.trans ?_
  simp only [rxBytes]
  rw [rxByte, rxTimeoutCheck_same hT]
  simp only [rxArm, armKind, storeRx_in (show 1 < 180 by decide)]
  rfl

/-- A stalled unit is stored as far as it goes, and the assembler waits for more (R90). -/
theorem rxBytes_stalled {tail : List Byte} (hw : (DataUnit.stalled tail).wellFormed = true) :
    ∃ x rem, x ≠ .waitSof ∧ rxBytes now (s.cfg.sof :: tail) (s, false) =
      ({ s with rx := ⟨x, Memory.writeBytes [] 0 tail, lenByte tail.length, rem, now⟩ }, false) := by
  match tail with
  | [] => exact ⟨.waitLength, 0#8, nofun, rxByte_lead hi hs⟩
  | l :: rest =>
    obtain ⟨hl, hn⟩ := wellFormed_stalled_cons_iff.1 hw
    match rest with
    | [] => exact ⟨.waitKind, l - 3#8, nofun, rxBytes_length hi hs hT l hl⟩
    | [k] => exact ⟨.waitCommand, l - 3#8, nofun, rxBytes_kind hi hs hT hl k⟩
    | k :: c :: p => exact ⟨_, _, nextField_ne_waitSof _, rxBytes_fields hi hs hT l hl k c p hn⟩

end Unfinished

theorem length_le_of_stalled {tail : List Byte} (hw : (DataUnit.stalled tail).wellFormed = true) :
    tail.length ≤ 180 := by
  cases tail with
  | nil => exact Nat.zero_le _
  | cons l rest =>
    obtain ⟨hl, hn⟩ := wellFormed_stalled_cons_iff.1 hw
    obtain ⟨-, h180⟩ := legalLength_iff.1 hl
    simp only [List.length_cons]; omega

/-- Settles O25: the bytes of each unit one after another, none of them late. -/
theorem unfinishedUnitsAreRefusedOrWait : Obligations.UnfinishedUnitsAreRefusedOrWait := by
  intro s now hi hs hT
  refine ⟨fun l hw => ?badLength, fun tail hw => ?stalled⟩
  case badLength =>
    simp only [exec, execData, encodeTail, rxBytes_badLength hi hs hT (wellFormed_badLength_iff.1 hw)]
    rfl
  case stalled =>
    obtain ⟨x, rem, hx, h⟩ := rxBytes_stalled (now := now) hi hs hT hw
    refine ⟨⟨x, Memory.writeBytes [] 0 tail, lenByte tail.length, rem, now⟩, ?_, hx, rfl,
      lenByte_toNat (Nat.lt_of_le_of_lt (length_le_of_stalled hw) (by decide)), read_writeBytes_nil tail⟩
    simp only [exec, execData, encodeTail, h]
    rfl

end Sys2Proof.Machine
end

section
/-! PROOFS. What the host command port answers (R92, R93, R95, R208). -/

namespace Sys2Proof.Machine

/-- The codes of `Outcome` are 0 to 5 (R92). -/
theorem PollOutcome.code_le (o : PollOutcome) : o.code.toNat ≤ 5 := by cases o <;> decide

/-- Settles O42: each operation's result, and for TRANSMIT its three ends. -/
theorem hostPortResultsHaveTheirCodes : Obligations.HostPortResultsHaveTheirCodes := by
  intro s t
  refine ⟨?poll, fun c k p now h => ?transmit, ?getAck, ?getByte, ?set, ?reserved⟩
  case poll => rintro now ⟨⟩; exact ⟨_, PollOutcome.code_le _, rfl⟩
  case transmit =>
    rcases execTransmit_cases c k p now s with ⟨hv, e⟩ | ⟨hv, hp, e⟩ | ⟨hv, hp, e⟩ <;> cases e.symm.trans h
    · rw [if_pos hv]; rfl
    · rw [hv, if_neg nofun, if_pos hp]; rfl
    · rw [hv, if_neg nofun, if_neg (Nat.not_lt.2 hp)]; rfl
  case getAck => rintro ⟨⟩; rfl
  case getByte => rintro ⟨⟩; rfl
  case set => rintro v (⟨⟨⟩⟩ | ⟨⟨⟩⟩) <;> rfl
  case reserved => rintro (⟨⟨⟩⟩ | ⟨⟨⟩⟩) <;> rfl

/-- Settles O41: both codes end with no result and write nothing else. -/
theorem reservedCodesDoNothing : Obligations.ReservedCodesDoNothing := fun _ => ⟨rfl, rfl⟩

end Sys2Proof.Machine
end

section
/-! PROOFS. The Frame Codec (R110 to R115): what CHECKSUM, ENCODE, DECODE and CLASSIFY answer, one equation each, and the laws of
the checksum and of the lead bytes. -/

namespace Sys2Proof.Machine

variable {cfg : Cfg} {s : State} {bs cs : List Byte} {l k c x : Byte} {p : List Byte}

/-! ### One equation for each operation -/

theorem exec_checksum (bs : List Byte) (s : State) :
    exec (.checksum bs) s = .next { s with result := .byte (checksum bs) } := rfl

theorem exec_encode (c : Byte) (k : Kind) (p : List Byte) (s : State) :
    exec (.encode c k p) s = .next { s with result := .encoded (encodeFrame s.cfg c k p) } := rfl

theorem exec_decode (bs : List Byte) (s : State) :
    exec (.decode bs) s = .next { s with result := .decoded (decodeFrame s.cfg bs) } := rfl

theorem exec_classify (b : Byte) (s : State) :
    exec (.classify b) s = .next { s with result := .lead (classify s.cfg b) } := rfl

/-! ### CHECKSUM -/

theorem checksum_perm (h : bs.Perm cs) : checksum bs = checksum cs := congrArg (~~~ ·) (xorAll_perm h)

/-- A byte is the checksum of the bytes before it exactly when the exclusive-or of all of them is `0xFF` (R110). -/
theorem eq_checksum_iff : x = checksum bs ↔ xorAll (bs ++ [x]) = 0xFF#8 := by
  have hc : checksum bs = xorAll bs ^^^ 0xFF#8 := BitVec.xor_allOnes.symm
  have hx : xorAll (bs ++ [x]) = xorAll bs ^^^ x := by simp
  rw [hc, hx, ← BitVec.xor_right_inj (xorAll bs), ← BitVec.xor_assoc, BitVec.xor_self, BitVec.zero_xor]

/-- Settles O6, by the laws of the exclusive-or. -/
theorem checksumIsComplementOfXor : Obligations.ChecksumIsComplementOfXor := by
  intro s bs
  refine ⟨checksum bs, exec_checksum bs s, rfl, ?empty, fun h => ?full, eq_checksum_iff.1 rfl, fun cs h => ?order⟩
  case empty => rintro rfl; rfl
  case full => rw [checksum, xorAll, h]; rfl
  case order => rw [exec_checksum, checksum_perm h]

/-! ### ENCODE -/

theorem encodeFrame_of_le (c : Byte) (k : Kind) (hp : p.length ≤ 177) :
    encodeFrame cfg c k p = .bytes (frameBytes cfg c k p) := if_neg (Nat.not_lt.2 hp)

theorem encodeFrame_of_lt (c : Byte) (k : Kind) (hp : 178 ≤ p.length) : encodeFrame cfg c k p = .payloadTooLarge :=
  if_pos hp

/-- The bytes of a frame one field after another (R80). -/
theorem frameBytes_eq (cfg : Cfg) (c : Byte) (k : Kind) (p : List Byte) : frameBytes cfg c k p =
    cfg.sof :: lenByte (p.length + 3) :: kindCode cfg k :: c :: p ++
      [checksum (lenByte (p.length + 3) :: kindCode cfg k :: c :: p)] := rfl

/-- Settles O7: the frame's bytes field by field, for each kind. -/
theorem encodeBuildsTheFrame : Obligations.EncodeBuildsTheFrame := by
  intro s c k p
  refine ⟨fun hp => ?_, fun hp => ?_⟩
  · rw [exec_encode, encodeFrame_of_le c k hp, frameBytes_eq]
    cases k <;> rfl
  · rw [exec_encode, encodeFrame_of_lt c k hp]

/-! ### DECODE -/

/-- The first check (R112): too few bytes, too many, or another first byte than `SOF`. -/
theorem decodeFrame_noFrame (h : bs.length < 5 ∨ 182 < bs.length ∨ bs.head? ≠ some cfg.sof) :
    decodeFrame cfg bs = .framingError := by
  cases bs with
  | nil => rfl
  | cons b t => exact if_pos (h.imp_right (.imp_right (mt (congrArg some))))

/-- The other three checks (R112), on the fields of a list that passed the first. -/
theorem decodeFrame_fields (hp : p.length ≤ 177) : decodeFrame cfg (cfg.sof :: l :: k :: c :: p ++ [x]) =
    if x ≠ checksum (l :: k :: c :: p) then .checksumError
    else if l.toNat ≠ p.length + 3 then .framingError
    else (kindOf cfg k).elim .framingError fun kind => .frame ⟨kind, c, p⟩ := by
  have hlen : (cfg.sof :: l :: k :: c :: p ++ [x]).length = p.length + 5 := by simp
  have hlast : byteAt (cfg.sof :: l :: k :: c :: p ++ [x]) (p.length + 5 - 1) = x := by simp [byteAt]
  have hbody : slice (cfg.sof :: l :: k :: c :: p ++ [x]) 1 (p.length + 5 - 2) = l :: k :: c :: p := by simp [slice]
  have hpay : slice (cfg.sof :: l :: k :: c :: p ++ [x]) 4 (p.length + 5 - 2) = p := by simp [slice]
  have h1 : ¬ (p.length + 5 < 5 ∨ txBufSize < p.length + 5 ∨
      byteAt (cfg.sof :: l :: k :: c :: p ++ [x]) 0 ≠ cfg.sof) := by simp [byteAt, txBufSize]; omega
  simp only [decodeFrame, hlen, hlast, hbody, hpay, if_neg h1]
  cases h : kindOf cfg k <;> simp [byteAt, h]

theorem decodeFrame_checksumError (hp : p.length ≤ 177) (hx : x ≠ checksum (l :: k :: c :: p)) :
    decodeFrame cfg (cfg.sof :: l :: k :: c :: p ++ [x]) = .checksumError := by
  rw [decodeFrame_fields hp, if_pos hx]

section GoodChecksum

variable (hp : p.length ≤ 177) (hx : x = checksum (l :: k :: c :: p))
include hp hx

theorem decodeFrame_wrongLength (hl : l.toNat ≠ p.length + 3) :
    decodeFrame cfg (cfg.sof :: l :: k :: c :: p ++ [x]) = .framingError := by
  rw [decodeFrame_fields hp, if_neg (not_not.2 hx), if_pos hl]

theorem decodeFrame_badKind (hl : l.toNat = p.length + 3) (hk : kindOf cfg k = none) :
    decodeFrame cfg (cfg.sof :: l :: k :: c :: p ++ [x]) = .framingError := by
  rw [decodeFrame_fields hp, if_neg (not_not.2 hx), if_neg (not_not.2 hl), hk, Option.elim_none]

theorem decodeFrame_goodKind {kind : Kind} (hl : l.toNat = p.length + 3) (hk : kindOf cfg k = some kind) :
    decodeFrame cfg (cfg.sof :: l :: k :: c :: p ++ [x]) = .frame ⟨kind, c, p⟩ := by
  rw [decodeFrame_fields hp, if_neg (not_not.2 hx), if_neg (not_not.2 hl), hk, Option.elim_some]

end GoodChecksum

theorem exec_decode_eq_iff {r : DecodeResult} :
    exec (.decode bs) s = .next { s with result := .decoded r } ↔ decodeFrame s.cfg bs = r := by simp [exec_decode]

/-- Settles O8: the first check, and each end of the other three. -/
theorem decodeMakesItsChecksInOrder : Obligations.DecodeMakesItsChecksInOrder := by
  intro s bs
  refine ⟨fun h => exec_decode_eq_iff.2 (decodeFrame_noFrame h), ?_⟩
  rintro l k c p x rfl hp
  simp only [exec_decode_eq_iff]
  refine ⟨fun hx => ?checksum, fun hx hl => ?length, fun hx hl h1 h2 => ?kind, fun hx hl hk => ?request,
    fun hc hx hl hk => ?response⟩
  case checksum => exact decodeFrame_checksumError hp hx
  case length => exact decodeFrame_wrongLength hp hx hl
  case kind => exact decodeFrame_badKind hp hx hl (kindOf_eq_none h1 h2)
  case request => exact decodeFrame_goodKind hp hx hl (if_pos hk)
  case response => exact decodeFrame_goodKind hp hx hl (kindOf_eq_some hc (k := .response) hk)

/-! ### ENCODE and DECODE together -/

theorem exec_encode_eq_iff {kind : Kind} {r : EncodeResult} :
    exec (.encode c kind p) s = .next { s with result := .encoded r } ↔ encodeFrame s.cfg c kind p = r := by
  simp [exec_encode]

/-- Settles O9: an encoded frame decodes to its fields, and nothing but an encoded frame decodes to a frame. -/
theorem frameRoundTripBothWays : Obligations.FrameRoundTripBothWays := by
  intro s hl
  refine ⟨fun c k p hp => ⟨frameBytes s.cfg c k p, ?_, ?_⟩, fun bs f h => ?_⟩
  · rw [exec_encode, encodeFrame_of_le c k hp]
  · rw [exec_decode, decodeFrame_frameBytes (legal_kinds hl) c k p hp]
  · obtain ⟨hp, hb⟩ := decodeFrame_frame (exec_decode_eq_iff.1 h)
    rw [exec_encode, encodeFrame_of_le _ _ hp, hb]

/-! ### A flipped bit -/

theorem twoPow_ne_zero {m : Nat} (h : m < 8) : BitVec.twoPow 8 m ≠ 0#8 := by
  intro h0
  have := congrArg (BitVec.getLsbD · m) h0
  simp [h] at this

/-- After `SOF`, bytes whose exclusive-or is not `0xFF` fail the checksum test, whatever they are (R112, R115). -/
theorem decodeFrame_of_xorAll_ne (h4 : 4 ≤ bs.length) (hn : bs.length ≤ 181) (hx : xorAll bs ≠ 0xFF#8) :
    decodeFrame cfg (cfg.sof :: bs) = .checksumError := by
  match bs, h4 with
  | l :: t, h4 =>
    obtain ⟨k, c, p, x, rfl⟩ := exists_fields (Nat.le_of_succ_le_succ h4)
    have hp : p.length ≤ 177 := by simp at hn; omega
    exact decodeFrame_checksumError hp (mt eq_checksum_iff.1 hx)

theorem xorAll_tail_frameBytes (cfg : Cfg) (c : Byte) (k : Kind) (p : List Byte) :
    xorAll (frameBytes cfg c k p).tail = 0xFF#8 := eq_checksum_iff.1 rfl

/-- Settles O10: a flipped bit after `SOF` flips a bit of the exclusive-or, and one in `SOF` makes it another byte. -/
theorem singleFlippedBitIsDetected : Obligations.SingleFlippedBitIsDetected := by
  intro s c k p bs j m hp he hm
  rw [exec_encode_eq_iff, encodeFrame_of_le c k hp] at he
  cases he
  have hd := twoPow_ne_zero hm
  have hx := xorAll_tail_frameBytes s.cfg c k p
  have hlen := length_frameBytes s.cfg c k p
  obtain ⟨t, ht⟩ : ∃ t, frameBytes s.cfg c k p = s.cfg.sof :: t := ⟨_, rfl⟩
  rw [ht] at hx hlen ⊢
  simp only [List.tail_cons, List.length_cons] at hx hlen
  refine ⟨fun h1 hj => ?_, ?_⟩
  · obtain ⟨i, rfl⟩ := Nat.exists_eq_add_of_le' h1
    have hi : i < t.length := Nat.lt_of_succ_lt_succ hj
    rw [List.set_cons_succ, List.getD_cons_succ, List.getD_eq_getElem _ _ hi, exec_decode,
      decodeFrame_of_xorAll_ne (by simp; omega) (by simp; omega)]
    rw [xorAll_set hi, hx]
    simpa using hd
  · rw [exec_decode, decodeFrame_noFrame (.inr (.inr ?_))]
    simpa using hd

/-! ### CLASSIFY -/

/-- Each class is given to exactly its bytes (R113). -/
theorem classify_iff (hl : cfg.legal = true) (b : Byte) :
    (classify cfg b = .leadSof ↔ b = cfg.sof) ∧ (classify cfg b = .symAck ↔ b = cfg.ack) ∧
      (classify cfg b = .symNak ↔ b = cfg.nak) ∧ (classify cfg b = .symCan ↔ b = cfg.can) ∧
      (classify cfg b = .noise ↔ b ≠ cfg.sof ∧ b ≠ cfg.ack ∧ b ≠ cfg.nak ∧ b ≠ cfg.can) := by
  obtain ⟨hsa, hsn, hsc, han, hac, hnc, -⟩ := legal_iff.1 hl
  rcases classify_cases cfg b with ⟨hc, rfl⟩ | ⟨hc, rfl⟩ | ⟨hc, rfl⟩ | ⟨hc, rfl⟩ | ⟨hc, hb⟩
  · simp [hc, hsa, hsn, hsc]
  · simp [hc, hsa.symm, han, hac]
  · simp [hc, hsn.symm, han.symm, hnc]
  · simp [hc, hsc.symm, hac.symm, hnc.symm]
  · simp [hc, hb]

/-- The four marker bytes as numbers. -/
def markers (cfg : Cfg) : List Nat := [cfg.sof.toNat, cfg.ack.toNat, cfg.nak.toNat, cfg.can.toNat]

theorem markers_nodup (hl : cfg.legal = true) : (markers cfg).Nodup := by
  obtain ⟨hsa, hsn, hsc, han, hac, hnc, -⟩ := legal_iff.1 hl
  simp [markers, BitVec.toNat_inj, hsa, hsn, hsc, han, hac, hnc]

theorem lt_of_mem_markers {n : Nat} (h : n ∈ markers cfg) : n < 256 := by
  simp only [markers, List.mem_cons, List.not_mem_nil, or_false] at h
  rcases h with rfl | rfl | rfl | rfl <;> exact BitVec.isLt _

theorem classify_ofNat_eq_noise_iff (hl : cfg.legal = true) {n : Nat} (hn : n < 256) :
    classify cfg (BitVec.ofNat 8 n) = .noise ↔ n ∉ markers cfg := by
  obtain ⟨-, -, -, -, h⟩ := classify_iff hl (BitVec.ofNat 8 n)
  simp [h, markers, ← BitVec.toNat_inj, Nat.mod_eq_of_lt hn]

/-- Distinct numbers below a bound are as many of the numbers below it as they are. -/
theorem countP_range_mem {M : List Nat} {N : Nat} (hM : M.Nodup) (h : ∀ n ∈ M, n < N) :
    (List.range N).countP (· ∈ M) = M.length := by
  have hp : ((List.range N).filter (· ∈ M)).Perm M :=
    (List.perm_ext_iff_of_nodup (List.nodup_range.filter _) hM).2 fun n => by simpa using h n
  rw [List.countP_eq_length_filter, hp.length_eq]

/-- All 256 byte values but the four markers are noise (R113). -/
theorem countP_noise (hl : cfg.legal = true) :
    (List.range 256).countP (fun n => classify cfg (BitVec.ofNat 8 n) = .noise) = 252 := by
  have hn : (List.range 256).countP (fun n => classify cfg (BitVec.ofNat 8 n) = .noise) =
      (List.range 256).countP (fun n => decide ¬ decide (n ∈ markers cfg) = true) :=
    List.countP_congr fun n h => by simp [classify_ofNat_eq_noise_iff hl (List.mem_range.1 h)]
  have h4 := countP_range_mem (markers_nodup hl) fun _ => lt_of_mem_markers
  have h256 := List.length_eq_countP_add_countP (fun n => decide (n ∈ markers cfg)) (l := List.range 256)
  rw [h4, ← hn, List.length_range] at h256
  simp only [markers, List.length_cons, List.length_nil] at h256
  omega

/-- Settles O11: one class for each byte, and four of the 256 bytes are markers. -/
theorem classifySplitsTheLeadBytes : Obligations.ClassifySplitsTheLeadBytes := by
  intro s hl
  refine ⟨fun b => ⟨_, exec_classify b s, classify_iff hl b⟩, ?_⟩
  rw [← countP_noise hl]
  exact List.countP_congr fun n _ => by simp [exec_classify, stateAfter]

end Sys2Proof.Machine
end

section
/-! PROOFS. A whole unit received one byte at a time from `WaitSof` (R118): what the assembler holds after each byte, whatever the
times in between as long as no byte is late, and how the checksum byte ends the unit as DECODE of its bytes says. -/

namespace Sys2Proof.Machine

variable {s u : State} {b l k c x : Byte} {t t' last : Time} {y : Result} {is : List Instr} {bs p : List Byte} {n : Nat}

/-! ### What the assembler holds -/

/-- The Receive Assembly State with the bytes `bs` after `SOF` stored, the last of them at `t`, and `n` payload bytes to come. -/
def RxAssembly.holding (x : RxState) (bs : List Byte) (n : Nat) (t : Time) : RxAssembly :=
  ⟨x, Memory.writeBytes [] 0 bs, lenByte bs.length, lenByte n, t⟩

/-- The state with this Receive Assembly State. -/
def State.receives (s : State) (x : RxState) (bs : List Byte) (n : Nat) (t : Time) : State :=
  { s with rx := .holding x bs n t }

theorem Memory.writeBytes_concat (m : Memory) (a : Nat) (bs : List Byte) (b : Byte) :
    m.writeBytes a (bs ++ [b]) = (m.writeBytes a bs).write (a + bs.length) b := by
  induction bs generalizing m a with
  | nil => rfl
  | cons d bs ih => simp only [List.cons_append, Memory.writeBytes, ih, List.length_cons]; congr 1; omega

theorem lenByte_succ (n : Nat) : lenByte n + 1#8 = lenByte (n + 1) := (BitVec.ofNat_add ..).symm

theorem lenByte_succ_sub_one (n : Nat) : lenByte (n + 1) - 1#8 = lenByte n := by
  rw [← lenByte_succ, BitVec.add_sub_cancel]

theorem nextField_succ (h : n + 1 < 256) : nextField (lenByte (n + 1)) = .waitPayload := by
  refine if_neg fun h0 => ?_
  have := congrArg BitVec.toNat h0
  rw [lenByte_toNat h] at this
  cases this

/-! ### One byte -/

section InTime

variable (h : (t - t').toNat < s.byteTimeoutMs.toNat)
include h

theorem rxByte_receives (x : RxState) (bs : List Byte) (n : Nat) (b : Byte) :
    rxByte b t (s.receives x bs n t') = rxArm b t (s.receives x bs n t') := rxByte_inTime h

theorem rxByte_lengthByte (hn : n ≤ 177) : rxByte (lenByte (n + 3)) t (s.receives .waitLength [] 0 t') =
    (s.receives .waitKind [lenByte (n + 3)] n t, false) := by
  have hl : legalLength (lenByte (n + 3)) = true := by rw [legalLength_iff, lenByte_toNat (by omega)]; omega
  have hr : lenByte (n + 3) - 3#8 = lenByte n := by
    rw [show lenByte (n + 3) = lenByte n + 3#8 from BitVec.ofNat_add .., BitVec.add_sub_cancel]
  rw [rxByte_receives h]
  simp only [rxArm, State.receives, RxAssembly.holding, armLength, hl, if_true, hr, storeRx_in (show 0 < 180 by decide)]
  rfl

theorem rxByte_kindByte : rxByte k t (s.receives .waitKind [l] n t') = (s.receives .waitCommand [l, k] n t, false) := by
  rw [rxByte_receives h]
  simp only [rxArm, State.receives, RxAssembly.holding, armKind, storeRx_in (show 1 < 180 by decide)]
  rfl

theorem rxByte_commandByte : rxByte c t (s.receives .waitCommand [l, k] n t') =
    (s.receives (nextField (lenByte n)) [l, k, c] n t, false) := by
  rw [rxByte_receives h]
  simp only [rxArm, State.receives, RxAssembly.holding, armCommand, storeRx_in (show 2 < 180 by decide)]
  rfl

theorem rxByte_payloadByte (hb : bs.length + (n + 1) ≤ 180) :
    rxByte b t (s.receives (nextField (lenByte (n + 1))) bs (n + 1) t') =
      (s.receives (nextField (lenByte n)) (bs ++ [b]) n t, false) := by
  have hc : (lenByte bs.length).toNat = bs.length := lenByte_toNat (by omega)
  rw [rxByte_receives h, nextField_succ (by omega)]
  simp only [rxArm, State.receives, RxAssembly.holding, armPayload_eq, hc, storeRx_in (show bs.length < 180 by omega),
    lenByte_succ, lenByte_succ_sub_one, Memory.writeBytes_concat, List.length_append, List.length_singleton, Nat.zero_add]

end InTime

/-! ### A run of RXBYTEs -/

/-- RXBYTE at the head of a run, after whatever result. -/
theorem runOps_rxbyte_cons {term : Bool} (h : rxByte b t s = (u, term)) :
    runOps (.rxbyte b t :: is) { s with result := y } = runOps is { u with result := .terminal term } := by
  rw [runOps, exec_rxbyte_of_result]
  simp only [exec, execRxbyte, h]
  rfl

theorem runOps_singleton (i : Instr) (s : State) : runOps [i] s = exec i s := by
  obtain ⟨t, ht⟩ := exec_total i s
  rw [runOps, ht]
  rfl

/-- The run of RXBYTEs of these bytes at these times. -/
abbrev rxRun (bs : List Byte) (ts : List Time) : State → Host.Outcome State Fault Refusal :=
  runOps (List.zipWith (fun b t => .rxbyte b t) bs ts)

/-- No byte comes later than the byte timeout after the byte before it. -/
abbrev InTime (T : Millis) : List Time → Prop := List.IsChain fun a b => (b - a).toNat < T.toNat

/-- The payload bytes are stored one after another, and the checksum byte finds all of them (R136). -/
theorem rxRun_payload (p : List Byte) (ts : List Time) (bs : List Byte) (t : Time) (y : Result)
    (hts : ts.length = p.length) (hb : bs.length + p.length ≤ 180) (hch : InTime s.byteTimeoutMs (t :: ts ++ [last])) :
    ∃ t', (last - t').toNat < s.byteTimeoutMs.toNat ∧
      rxRun (p ++ [x]) (ts ++ [last]) { s.receives (nextField (lenByte p.length)) bs p.length t with result := y } =
        exec (.rxbyte x last) (s.receives .waitChecksum (bs ++ p) 0 t') := by
  induction p generalizing ts bs t y with
  | nil =>
    obtain rfl := List.length_eq_zero_iff.1 hts
    obtain ⟨ht, -⟩ := List.isChain_cons_cons.1 hch
    refine ⟨t, ht, (runOps_singleton _ _).trans ?_⟩
    rw [exec_rxbyte_of_result, List.append_nil]
    rfl
  | cons b p ih =>
    obtain ⟨t₁, ts, rfl⟩ := List.exists_of_length_succ ts hts
    obtain ⟨ht, hch⟩ := List.isChain_cons_cons.1 hch
    obtain ⟨t', ht', e⟩ := ih ts (bs ++ [b]) t₁ (.terminal false) (Nat.succ.inj hts)
      (by simp only [List.length_append, List.length_cons, List.length_nil] at *; omega) hch
    refine ⟨t', ht', (runOps_rxbyte_cons (rxByte_payloadByte ht hb)).trans (e.trans ?_)⟩
    rw [List.append_assoc, List.singleton_append]

/-- The checksum byte of a unit as long as it says finds every byte between `SOF` and itself stored (R132 to R136). -/
theorem rxRun_unit (hi : s.Inv) (hs : s.rx.state = .waitSof) (hp : p.length ≤ 177) {ts : List Time}
    (hts : ts.length = p.length + 4) (hch : InTime s.byteTimeoutMs (ts ++ [last])) :
    ∃ t, (last - t).toNat < s.byteTimeoutMs.toNat ∧
      rxRun (s.cfg.sof :: lenByte (p.length + 3) :: k :: c :: p ++ [x]) (ts ++ [last]) s =
        exec (.rxbyte x last) (s.receives .waitChecksum (lenByte (p.length + 3) :: k :: c :: p) 0 t) := by
  match ts, hts with
  | t₀ :: t₁ :: t₂ :: t₃ :: ts, hts =>
    simp only [List.cons_append, List.isChain_cons_cons] at hch
    obtain ⟨h₁, h₂, h₃, hch⟩ := hch
    obtain ⟨t, ht, e⟩ := rxRun_payload (x := x) p ts [lenByte (p.length + 3), k, c] t₃ (.terminal false)
      (by simpa using hts) (by simp; omega) hch
    refine ⟨t, ht, Eq.trans ?_ e⟩
    have h₀ : rxByte s.cfg.sof t₀ s = (s.receives .waitLength [] 0 t₀, false) := rxByte_lead hi hs
    calc rxRun (s.cfg.sof :: lenByte (p.length + 3) :: k :: c :: p ++ [x]) (t₀ :: t₁ :: t₂ :: t₃ :: ts ++ [last]) s
        = rxRun (lenByte (p.length + 3) :: k :: c :: p ++ [x]) (t₁ :: t₂ :: t₃ :: ts ++ [last])
            { s.receives .waitLength [] 0 t₀ with result := .terminal false } := runOps_rxbyte_cons h₀
      _ = rxRun (k :: c :: p ++ [x]) (t₂ :: t₃ :: ts ++ [last])
            { s.receives .waitKind [lenByte (p.length + 3)] p.length t₁ with result := .terminal false } :=
          runOps_rxbyte_cons (rxByte_lengthByte h₁ hp)
      _ = rxRun (c :: p ++ [x]) (t₃ :: ts ++ [last])
            { s.receives .waitCommand [lenByte (p.length + 3), k] p.length t₂ with result := .terminal false } :=
          runOps_rxbyte_cons (rxByte_kindByte h₂)
      _ = rxRun (p ++ [x]) (ts ++ [last])
            { s.receives (nextField (lenByte p.length)) [lenByte (p.length + 3), k, c] p.length t₃ with
              result := .terminal false } := runOps_rxbyte_cons (rxByte_commandByte h₃)

/-! ### The checksum byte -/

/-- The bytes stored are those the checksum is taken of (R137). -/
theorem loadRx_receives (hn : bs.length ≤ 180) (x : RxState) (n : Nat) (t : Time) :
    loadRx (s.receives x bs n t).rx.count.toNat (s.receives x bs n t) = bs := by
  have hc : (s.receives x bs n t).rx.count.toNat = bs.length := lenByte_toNat (by omega)
  rw [hc, loadRx_eq hn]
  exact Memory.readBytes_writeBytes _ _

/-- A byte stored is read back at its place in the unit. -/
theorem read_receives (x : RxState) (bs : List Byte) (n : Nat) (t : Time) (a : Nat) :
    (s.receives x bs n t).rx.buf.read a = bs.getD a 0#8 := read_writeBytes_nil bs a

section ChecksumByte

variable (hs : s.rx = RxAssembly.idle) (hn : (l :: k :: c :: p).length ≤ 180)
  (ht : (last - t).toNat < s.byteTimeoutMs.toNat)
include hs hn ht

/-- R138. -/
theorem exec_checksumByte_fails (hx : x ≠ checksum (l :: k :: c :: p)) :
    exec (.rxbyte x last) (s.receives .waitChecksum (l :: k :: c :: p) 0 t) = .next { s with
      events := s.events ++ [.evChecksumFailed, .txBytes [s.cfg.nak]], result := .terminal true } := by
  rw [exec_rxbyte_checksumFailed rfl ht (by rwa [loadRx_receives hn]), ← hs]
  rfl

/-- R139. -/
theorem exec_checksumByte_badKind (hx : x = checksum (l :: k :: c :: p)) (hk : kindOf s.cfg k = none) :
    exec (.rxbyte x last) (s.receives .waitChecksum (l :: k :: c :: p) 0 t) = .next { s with
      events := s.events ++ [.evBadKind k], result := .terminal true } := by
  have hb : (s.receives .waitChecksum (l :: k :: c :: p) 0 t).rx.buf.read 1 = k := read_receives _ _ _ _ _
  rw [exec_rxbyte_badKind rfl ht (by rwa [loadRx_receives hn]) (by rwa [hb]), hb, ← hs]
  rfl

/-- R140. -/
theorem exec_checksumByte_screens {kind : Kind} (hx : x = checksum (l :: k :: c :: p))
    (hk : kindOf s.cfg k = some kind) : exec (.rxbyte x last) (s.receives .waitChecksum (l :: k :: c :: p) 0 t) =
      withResult (.terminal true) (exec (.screen ⟨kind, c, p⟩ last) s) := by
  have hb : (s.receives .waitChecksum (l :: k :: c :: p) 0 t).rx.buf.read 1 = k := read_receives _ _ _ _ _
  have hc : (s.receives .waitChecksum (l :: k :: c :: p) 0 t).rx.buf.read 2 = c := read_receives _ _ _ _ _
  have hr : rxReset (s.receives .waitChecksum (l :: k :: c :: p) 0 t) = s := by
    rw [rxReset, ← hs]; rfl
  rw [exec_rxbyte_screens rfl ht (by rwa [loadRx_receives hn]) (by rwa [hb]), loadRx_receives hn, hc, hr]
  rfl

end ChecksumByte

/-- Settles O23: the unit is stored byte by byte, and its checksum byte makes the two tests DECODE makes of the same bytes; the
test of the length field does not fail, since the unit is as long as it says. -/
theorem receivedFrameAgreesWithDecode : Obligations.ReceivedFrameAgreesWithDecode := by
  intro s k c p x ts last hi hs hp hts hch bs run
  obtain ⟨t, ht, hrun⟩ : ∃ t, (last - t).toNat < s.byteTimeoutMs.toNat ∧
      run = exec (.rxbyte x last) (s.receives .waitChecksum (lenByte (p.length + 3) :: k :: c :: p) 0 t) :=
    rxRun_unit hi hs hp hts hch
  have hidle := hi.rx.sof hs
  have hl : (lenByte (p.length + 3)).toNat = p.length + 3 := lenByte_toNat (by omega)
  have hn : (lenByte (p.length + 3) :: k :: c :: p).length ≤ 180 := by simp only [List.length_cons]; omega
  rw [hrun]
  by_cases hx : x = checksum (lenByte (p.length + 3) :: k :: c :: p)
  · cases hk : kindOf s.cfg k with
    | none =>
      rw [show decodeFrame s.cfg bs = .framingError from decodeFrame_badKind hp hx hl hk]
      exact exec_checksumByte_badKind hidle hn ht hx hk
    | some kind =>
      rw [show decodeFrame s.cfg bs = .frame ⟨kind, c, p⟩ from decodeFrame_goodKind hp hx hl hk]
      exact exec_checksumByte_screens hidle hn ht hx hk
  · rw [show decodeFrame s.cfg bs = .checksumError from decodeFrame_checksumError hp hx]
    exact exec_checksumByte_fails hidle hn ht hx

/-! ### A unit at one time -/

/-- The RXBYTEs of a unit at one time are a run of RXBYTEs at equal times. -/
theorem map_rxbyte_eq_zipWith (bs : List Byte) (now : Time) : bs.map (fun b => Instr.rxbyte b now) =
    List.zipWith (fun b t => .rxbyte b t) bs (List.replicate bs.length now) := by
  induction bs with
  | nil => rfl
  | cons b bs ih => rw [List.length_cons, List.replicate_succ, List.zipWith_cons_cons, List.map_cons, ih]

/-- Bytes at one time are never late (R130), when the byte timeout is not zero. -/
theorem inTime_replicate {T : Millis} (hT : T ≠ 0#16) (n : Nat) (now : Time) : InTime T (List.replicate n now) := by
  refine List.isChain_replicate_of_rel n ?_
  have : T.toNat ≠ 0 := fun h => hT (BitVec.eq_of_toNat_eq (by simpa using h))
  simp only [BitVec.sub_self, BitVec.toNat_ofNat, Nat.zero_mod]
  omega

/-- An encoded frame received at one time goes to SCREEN (R118, R140). -/
theorem exec_data_screens (hi : s.Inv) (hs : s.rx.state = .waitSof) (hT : s.byteTimeoutMs ≠ 0#16)
    (hp : p.length ≤ 177) (kind : Kind) (now : Time)
    (hx : x = checksum (lenByte (p.length + 3) :: kindCode s.cfg kind :: c :: p)) :
    exec (.data (.frame (kindCode s.cfg kind) c p x) now) s =
      withResult (.terminal true) (exec (.screen ⟨kind, c, p⟩ now) s) := by
  let l := lenByte (p.length + 3)
  let k := kindCode s.cfg kind
  have hch : InTime s.byteTimeoutMs (List.replicate (p.length + 4) now ++ [now]) := by
    rw [← List.replicate_succ']; exact inTime_replicate hT _ now
  have hn : (l :: k :: c :: p).length ≤ 180 := by simp only [List.length_cons]; omega
  have hbs : (s.cfg.sof :: l :: k :: c :: p ++ [x]).length = p.length + 4 + 1 := by simp
  obtain ⟨t, ht, hrun⟩ := rxRun_unit (k := k) (c := c) (x := x) hi hs hp List.length_replicate hch
  calc exec (.data (.frame k c p x) now) s
      = runOps ((s.cfg.sof :: l :: k :: c :: p ++ [x]).map fun b => .rxbyte b now) s :=
        (wireUnitsAreTheirBytes s now).1 (.frame k c p x)
    _ = rxRun (s.cfg.sof :: l :: k :: c :: p ++ [x]) (List.replicate (p.length + 4) now ++ [now]) s := by
        rw [map_rxbyte_eq_zipWith, hbs, List.replicate_succ']
    _ = exec (.rxbyte x now) (s.receives .waitChecksum (l :: k :: c :: p) 0 t) := hrun
    _ = withResult (.terminal true) (exec (.screen ⟨kind, c, p⟩ now) s) :=
        exec_checksumByte_screens (hi.rx.sof hs) hn ht hx (kindOf_kindCode (legal_kinds hi.cfgLegal) kind)

/-- Settles O24: the unit goes to SCREEN, which delivers when there is no record to match. -/
theorem goodFrameIsDeliveredAndAcknowledged : Obligations.GoodFrameIsDeliveredAndAcknowledged := by
  intro s kind c p now hi hs hT hp hd k x
  have hm : ¬ matchesRecord ⟨kind, c, p⟩ s := fun ⟨hv, _⟩ => by rw [hd] at hv; cases hv
  obtain ⟨m, he, hr⟩ := exec_screen_delivers (now := now) fun h => hm h.1
  refine ⟨m, (exec_data_screens hi hs hT hp kind now rfl).trans (by rw [he]; rfl), fun a => ?_⟩
  rw [hr a, Nat.min_eq_left hp]

end Sys2Proof.Machine
end

section
/-! PROOFS. The control bytes CORE sends for received frames (R138, R168, R191, R192, R194): an ACK for each delivery and each
suppression, a NAK for each checksum failure, never a CAN. -/

namespace Sys2Proof.Machine

variable {s t : State} {i : Instr} {now : Time} {b : Byte} {term : Bool} {cfg : Cfg} {es es' : List Event} {bs : List Byte}

/-- The control bytes among the events are those the frames among them call for. -/
structure ControlBalance (cfg : Cfg) (es : List Event) : Prop where
  ack : es.count (.txBytes [cfg.ack]) = es.count .evFrameReceived + es.count .evDupSuppressed
  nak : es.count (.txBytes [cfg.nak]) = es.count .evChecksumFailed
  can : es.count (.txBytes [cfg.can]) = 0
  deliver : es.countP Event.isDeliver = es.count .evFrameReceived

theorem ControlBalance.nil : ControlBalance cfg [] := ⟨rfl, rfl, rfl, rfl⟩

theorem ControlBalance.append (h : ControlBalance cfg es) (h' : ControlBalance cfg es') :
    ControlBalance cfg (es ++ es') where
  ack := by simp only [List.count_append, h.ack, h'.ack]; omega
  nak := by simp only [List.count_append, h.nak, h'.nak]
  can := by simp only [List.count_append, h.can, h'.can]
  deliver := by simp only [List.countP_append, List.count_append, h.deliver, h'.deliver]

/-- A delivery sends one ACK (R191). -/
theorem controlBalance_delivered (hl : cfg.legal = true) (f : Frame) :
    ControlBalance cfg [.deliver f, .txBytes [cfg.ack], .evFrameReceived] := by
  obtain ⟨-, -, -, han, hac, -⟩ := legal_iff.1 hl
  constructor <;> simp [List.countP_cons, Event.isDeliver, han, hac]

/-- A suppression sends one ACK (R192). -/
theorem controlBalance_suppressed (hl : cfg.legal = true) :
    ControlBalance cfg [.txBytes [cfg.ack], .evDupSuppressed] := by
  obtain ⟨-, -, -, han, hac, -⟩ := legal_iff.1 hl
  constructor <;> simp [Event.isDeliver, han, hac]

/-- A checksum failure sends one NAK (R138). -/
theorem controlBalance_checksumFailed (hl : cfg.legal = true) :
    ControlBalance cfg [.evChecksumFailed, .txBytes [cfg.nak]] := by
  obtain ⟨-, -, -, han, -, hnc, -⟩ := legal_iff.1 hl
  constructor <;> simp [Event.isDeliver, han.symm, hnc]

/-- The events that no clause counts: neither the fate of a frame nor one byte sent alone. -/
def Event.uncounted : Event → Bool
  | .txBytes bs => bs.length != 1
  | .deliver _ | .evFrameReceived | .evDupSuppressed | .evChecksumFailed => false
  | _ => true

theorem controlBalance_of_uncounted (h : ∀ e ∈ es, e.uncounted = true) : ControlBalance cfg es := by
  have absent (e : Event) (he : e.uncounted = false) : es.count e = 0 :=
    List.count_eq_zero.2 fun hm => by simp [h e hm] at he
  have hr := absent .evFrameReceived rfl
  have hd : es.countP Event.isDeliver = 0 := List.countP_eq_zero.2 fun e hm he => by
    cases e with
    | deliver f => exact absurd (h _ hm) nofun
    | _ => cases he
  refine ⟨?ack, ?nak, absent _ rfl, hd.trans hr.symm⟩
  case ack => rw [hr, absent .evDupSuppressed rfl, absent _ rfl]
  case nak => rw [absent .evChecksumFailed rfl, absent _ rfl]

theorem uncounted_txBytes (h : 5 ≤ bs.length) : (Event.txBytes bs).uncounted = true := by
  simp only [Event.uncounted, bne_iff_ne]; omega

/-- The bytes of an Outstanding Transmission are no single control byte (R37). -/
theorem controlBalance_resent (h : s.tx.Inv s.cfg) (hv : s.tx.valid = true) (c : RetryCause) :
    ControlBalance cfg [.txBytes (loadTx s.tx.len.toNat s), .evRetransmit c] := by
  have hn := uncounted_txBytes (bs := loadTx s.tx.len.toNat s) (by rw [length_loadTx]; exact h.lenMin hv)
  exact controlBalance_of_uncounted (List.forall_mem_cons.2 ⟨hn, List.forall_mem_singleton.2 rfl⟩)

/-! ### What is emitted between two states -/

/-- The events between two states are balanced. -/
def KeepsBalance (s t : State) : Prop := ∃ es, t.events = s.events ++ es ∧ ControlBalance s.cfg es

theorem KeepsBalance.of_events_eq (h : t.events = s.events) : KeepsBalance s t :=
  ⟨[], by rw [h, List.append_nil], .nil⟩

theorem ArmCase.keepsBalance (hc : ArmCase b now s t term) (h : s.Inv) : KeepsBalance s t := by
  cases hc with
  | leadSof | length | kind | command | payload => exact .of_events_eq rfl
  | stray | acked | naked | cancelled | noise | badLength | badKind =>
    exact ⟨_, rfl, controlBalance_of_uncounted (by simp [Event.uncounted])⟩
  | resent _ _ hv _ => exact ⟨_, rfl, controlBalance_resent h.tx hv .nak⟩
  | checksumFailed => exact ⟨_, rfl, controlBalance_checksumFailed h.cfgLegal⟩
  | suppress => exact ⟨_, rfl, controlBalance_suppressed h.cfgLegal⟩
  | deliver f => exact ⟨_, rfl, controlBalance_delivered h.cfgLegal f⟩

theorem Effect.keepsBalance (he : Effect s t) (h : s.Inv) : KeepsBalance s t := by
  cases he with
  | arm hc => exact hc.keepsBalance h
  | recordEnd | popped => exact .of_events_eq rfl
  | rxTimeout | stray | acked | cancelled | failed =>
    exact ⟨_, rfl, controlBalance_of_uncounted (by simp [Event.uncounted])⟩
  | resent c now hv _ => exact ⟨_, rfl, controlBalance_resent h.tx hv c⟩
  | suppressed => exact ⟨_, rfl, controlBalance_suppressed h.cfgLegal⟩

theorem Effects.keepsBalance (he : Effects s t) (h : s.Inv) : KeepsBalance s t := by
  obtain ⟨es, e, -, hb⟩ := he.lift (fun s t es => t.cfg = s.cfg ∧ ControlBalance s.cfg es) (fun _ => ⟨rfl, .nil⟩)
    (fun _ _ _ _ _ ⟨hc, hb⟩ ⟨hc', hb'⟩ => ⟨hc'.trans hc, hb.append (hc ▸ hb')⟩)
    (fun _ _ h he => by
      obtain ⟨es, e, hb⟩ := he.keepsBalance h
      exact ⟨es, e, (settings_eq_iff.1 he.settings).1, hb⟩) h
  exact ⟨es, e, hb⟩

theorem ExecCase.keepsBalance (hc : ExecCase s i t) (h : s.Inv) : KeepsBalance s t := by
  cases hc with
  | effects r he _ _ => exact he.keepsBalance h
  | delivered f now _ => exact ⟨_, rfl, controlBalance_delivered h.cfgLegal f⟩
  | accepted c k p now _ _ =>
    have hn := uncounted_txBytes (bs := frameBytes s.cfg c k p) (by rw [length_frameBytes]; omega)
    exact ⟨_, rfl, controlBalance_of_uncounted (List.forall_mem_singleton.2 hn)⟩
  | setAck | setByte | reset => exact .of_events_eq rfl

/-- Settles O52: everything an operation can do keeps the balance. -/
theorem oneControlByteForEachFrame : Obligations.OneControlByteForEachFrame := by
  intro i s t h _ he
  obtain ⟨es, hes, hack, hnak, hcan, hdel⟩ := (exec_cases he).keepsBalance h
  exact ⟨es, hes, hack, hnak, hcan, hdel⟩

end Sys2Proof.Machine
end

section
/-! PROOFS. The Receive Assembler (R130 to R144): the byte-deadline test, what one byte does in each state of the assembler, and
the transition table. -/

namespace Sys2Proof.Machine

variable {s : State} {now : Time} {b : Byte}

/-! ### The byte deadline -/

/-- A late byte is a lead byte: from the cleared assembler the deadline test does not fire again (R130, R131). -/
theorem rxByte_late (hs : s.rx.state ≠ .waitSof) (ht : s.byteTimeoutMs.toNat ≤ (now - s.rx.lastTime).toNat) :
    rxByte b now s = rxByte b now { s with rx := RxAssembly.idle, events := s.events ++ [.evRxTimeout] } := by
  rw [rxByte, rxTimeoutCheck_fires hs ht, rxByte, rxTimeoutCheck_none (.inl idle_state)]

/-- Settles O12: RXBYTE is `rxByte` and its end. -/
theorem lateByteStartsAfresh : Obligations.LateByteStartsAfresh :=
  fun _ _ _ hs ht => congrArg finishByte (rxByte_late hs ht)

/-- Settles O18: the two ends of the deadline test. -/
theorem idleCheckDropsAStalledFrame : Obligations.IdleCheckDropsAStalledFrame :=
  fun _ _ => ⟨fun hs ht => congrArg (finish .none) (rxTimeoutCheck_fires hs ht),
    fun h => congrArg (finish .none) (rxTimeoutCheck_none h)⟩

/-- A byte that is not late goes to the arm of the current state (R130). -/
theorem exec_rxbyte_eq_arm (h : s.rx.state = .waitSof ∨ (now - s.rx.lastTime).toNat < s.byteTimeoutMs.toNat) :
    exec (.rxbyte b now) s = finishByte (rxArm b now s) := by
  rw [exec, execRxbyte, rxByte, rxTimeoutCheck_none h]

/-! ### A byte in `WaitSof` -/

theorem exec_rxbyte_sof (hs : s.rx.state = .waitSof) : exec (.rxbyte s.cfg.sof now) s =
    .next { s with rx := { s.rx with state := .waitLength, lastTime := now }, result := .terminal false } := by
  simp only [exec_rxbyte_eq_arm (.inl hs), rxArm, hs, armSof, classify_sof]
  rfl

/-- Settles O13: a one-byte unit is the RXBYTE of its byte, so the three symbols and noise do what their units do. -/
theorem leadByteSelectsTheUnit : Obligations.LeadByteSelectsTheUnit := by
  intro s now hl hs
  refine ⟨exec_rxbyte_sof hs, exec_ack_of_waitSof hl hs, exec_nak_of_waitSof hl hs, exec_can_of_waitSof hl hs,
    fun b h1 h2 h3 h4 => exec_noise_of_waitSof hs ?_⟩
  obtain ⟨-, -, -, -, hnoise⟩ := classify_iff hl b
  exact hnoise.2 ⟨h1, h2, h3, h4⟩

/-! ### A byte of a frame, before the deadline -/

theorem legalLength_eq_false_iff : legalLength b = false ↔ b.toNat < 3 ∨ 180 < b.toNat := by
  rw [← Bool.not_eq_true, legalLength_iff]; omega

section InTime

variable (ht : (now - s.rx.lastTime).toNat < s.byteTimeoutMs.toNat)
include ht

/-- R133, an illegal length. -/
theorem exec_rxbyte_badLength (hs : s.rx.state = .waitLength) (hb : legalLength b = false) :
    exec (.rxbyte b now) s = .next { s with
      rx := RxAssembly.idle, events := s.events ++ [.evBadLength b], result := .terminal true } := by
  simp only [exec_rxbyte_eq_arm (.inr ht), rxArm, hs, armLength, hb]
  rfl

/-- R133, a legal length. -/
theorem exec_rxbyte_length (hs : s.rx.state = .waitLength) (hb : legalLength b = true) :
    exec (.rxbyte b now) s = .next { s with
      rx := ⟨.waitKind, s.rx.buf.write 0 b, 1#8, b - 3#8, now⟩, result := .terminal false } := by
  simp only [exec_rxbyte_eq_arm (.inr ht), rxArm, hs, armLength, hb, if_true, storeRx_in (show 0 < 180 by decide)]
  rfl

/-- R134. -/
theorem exec_rxbyte_kind (hs : s.rx.state = .waitKind) : exec (.rxbyte b now) s = .next { s with
    rx := ⟨.waitCommand, s.rx.buf.write 1 b, 2#8, s.rx.remaining, now⟩, result := .terminal false } := by
  simp only [exec_rxbyte_eq_arm (.inr ht), rxArm, hs, armKind, storeRx_in (show 1 < 180 by decide)]
  rfl

/-- R135. -/
theorem exec_rxbyte_command (hs : s.rx.state = .waitCommand) : exec (.rxbyte b now) s = .next { s with
    rx := ⟨nextField s.rx.remaining, s.rx.buf.write 2 b, 3#8, s.rx.remaining, now⟩, result := .terminal false } := by
  simp only [exec_rxbyte_eq_arm (.inr ht), rxArm, hs, armCommand, storeRx_in (show 2 < 180 by decide)]
  rfl

/-- R136, inside the buffer. -/
theorem exec_rxbyte_payload (hs : s.rx.state = .waitPayload) (hc : s.rx.count.toNat < 180) :
    exec (.rxbyte b now) s = .next { s with
      rx := ⟨nextField (s.rx.remaining - 1#8), s.rx.buf.write s.rx.count.toNat b, s.rx.count + 1#8,
        s.rx.remaining - 1#8, now⟩
      result := .terminal false } := by
  simp only [exec_rxbyte_eq_arm (.inr ht), rxArm, hs, armPayload_eq, storeRx_in hc]
  rfl

end InTime

theorem sub_three_eq_ofNat (h : 3 ≤ b.toNat) : b - 3#8 = BitVec.ofNat 8 (b.toNat - 3) := by
  bv_omega

/-- Settles O14: the two ends of the length test. -/
theorem lengthByteIsStoredOrRefused : Obligations.LengthByteIsStoredOrRefused := by
  intro s b now hs ht
  refine ⟨fun hb => exec_rxbyte_badLength ht hs (legalLength_eq_false_iff.2 hb),
    fun h3 h180 => ⟨s.rx.buf.write 0 b, ?_, Memory.read_write _ _ _⟩⟩
  rw [exec_rxbyte_length ht hs (legalLength_iff.2 ⟨h3, h180⟩), sub_three_eq_ofNat h3]

/-- Settles O15: each byte has its place in the buffer. -/
theorem kindAndCommandBytesAreStored : Obligations.KindAndCommandBytesAreStored := fun s b _ ht =>
  ⟨fun hs => ⟨s.rx.buf.write 1 b, exec_rxbyte_kind ht hs, Memory.read_write _ _ _⟩,
    fun hs => ⟨s.rx.buf.write 2 b, exec_rxbyte_command ht hs, Memory.read_write _ _ _⟩⟩

/-- Settles O16: the last payload byte is the one with one remaining. -/
theorem payloadByteIsStoredAtTheCount : Obligations.PayloadByteIsStoredAtTheCount := by
  intro s b now hs hc ht
  refine ⟨s.rx.buf.write s.rx.count.toNat b, ?_, Memory.read_write _ _ _⟩
  rw [exec_rxbyte_payload ht hs hc, nextField_sub_one]

/-- Settles O17: up to 180 stored bytes are those of the buffer, and the checksum byte has three ends. -/
theorem checksumByteEndsTheFrame : Obligations.ChecksumByteEndsTheFrame := by
  intro s b now hl hs hc ht stored c done
  have hstored : loadRx s.rx.count.toNat s = stored := (loadRx_eq hc).trans (Memory.readBytes_eq_map _ _)
  have hsum : checksum (loadRx s.rx.count.toNat s) = c := congrArg checksum hstored
  refine ⟨fun hb => ?failed, fun hb h1 h2 => ?badKind, fun hb hk => ?request, fun hb hk => ?response⟩
  case failed => exact exec_rxbyte_checksumFailed hs ht (hsum ▸ hb)
  case badKind => exact exec_rxbyte_badKind hs ht (hsum ▸ hb) (kindOf_eq_none h1 h2)
  case request =>
    rw [← hstored]
    exact exec_rxbyte_screens hs ht (hsum ▸ hb) (if_pos hk)
  case response =>
    rw [← hstored]
    exact exec_rxbyte_screens hs ht (hsum ▸ hb) (kindOf_eq_some hl (k := .response) hk)

/-! ### What every byte does -/

/-- RXBYTE whose deadline test does not fire ends as one of the cases of its arm. -/
theorem exec_rxbyte_cases (b : Byte) (h : s.rx.state = .waitSof ∨ (now - s.rx.lastTime).toNat < s.byteTimeoutMs.toNat) :
    ∃ t term, exec (.rxbyte b now) s = .next { t with result := .terminal term } ∧ ArmCase b now s t term :=
  ⟨_, _, exec_rxbyte_eq_arm h, rxArm_cases b now s⟩

/-- Settles O19: the row of the table is read off each case of the arm. -/
theorem transitionTableOfTheAssembler : Obligations.TransitionTableOfTheAssembler := by
  intro s b now h
  obtain ⟨t, term, he, hc⟩ := exec_rxbyte_cases b h
  refine ⟨_, he, ?_⟩
  cases hc with
  | leadSof hs hb => simp only [hs, if_pos hb, and_self]
  | stray _ hs hb | acked hs hb | resent hs hb | naked hs hb | cancelled hs hb | noise hs hb =>
    simp only [hs, resent, if_neg hb, and_self]
  | badLength hs hb =>
    simp only [hs, ← legalLength_iff, hb, Bool.false_eq_true, if_false, idle_state, and_self]
  | length hs hb => simp only [hs, ← legalLength_iff, hb, if_true, and_self]
  | kind hs => simp only [hs, and_self]
  | command hs => simp only [hs, nextField, and_self]
  | payload hs => simp only [hs, nextField_sub_one, and_self]
  | checksumFailed hs | badKind hs | suppress _ hs | deliver _ hs => simp only [hs, idle_state, and_self]

theorem nextField_ne_waitLength (r : Byte) : nextField r ≠ .waitLength := by
  rcases nextField_cases r with ⟨-, e⟩ | ⟨-, e⟩ <;> rw [e] <;> nofun

/-- Settles O20: no case of an arm past `WaitSof` touches the transmission. -/
theorem markerBytesInsideAFrameAreData : Obligations.MarkerBytesInsideAFrameAreData := by
  intro s b now hs ht
  obtain ⟨t, term, he, hc⟩ := exec_rxbyte_cases b (.inr ht)
  cases hc with
  | leadSof h | stray _ h | acked h | resent h | naked h | cancelled h | noise h => exact absurd h hs
  | length | kind => exact ⟨_, [], he, (List.append_nil _).symm, rfl, nofun, nofun⟩
  | command | payload => exact ⟨_, [], he, (List.append_nil _).symm, rfl, nextField_ne_waitLength _, nofun⟩
  | badLength | checksumFailed | badKind | suppress | deliver =>
    exact ⟨_, _, he, rfl, rfl, nofun, by simp [Event.isTxDone]⟩

end Sys2Proof.Machine
end

section
/-! PROOFS. How many frames an operation ends (R141): a byte at most one, which its terminal flag reports, a POLL at most one
(R200, R201), and with a byte timeout of 0 none (R273). -/

namespace Sys2Proof.Machine

variable {s t u : State} {i : Instr} {now : Time} {b : Byte} {q : List Byte} {term : Bool} {m n : Nat}

/-- Between two states `n` frames end, and at most as many are delivered. -/
def FrameEnds (n : Nat) (s t : State) : Prop :=
  ∃ es, t.events = s.events ++ es ∧ es.countP Event.endsFrame = n ∧ es.countP Event.isDeliver ≤ n

theorem FrameEnds.of_events_eq (h : t.events = s.events) : FrameEnds 0 s t :=
  ⟨[], by rw [h, List.append_nil], rfl, Nat.le_refl 0⟩

theorem FrameEnds.trans (h₁ : FrameEnds m s t) (h₂ : FrameEnds n t u) : FrameEnds (m + n) s u := by
  obtain ⟨es₁, e₁, hn₁, hd₁⟩ := h₁
  obtain ⟨es₂, e₂, hn₂, hd₂⟩ := h₂
  refine ⟨es₁ ++ es₂, by rw [e₂, e₁, List.append_assoc], ?_, ?_⟩ <;> rw [List.countP_append]
  · rw [hn₁, hn₂]
  · exact Nat.add_le_add hd₁ hd₂

theorem FrameEnds.trans_none (h₁ : FrameEnds n s t) (h₂ : FrameEnds 0 t u) : FrameEnds n s u := h₁.trans h₂

theorem FrameEnds.none_trans (h₁ : FrameEnds 0 s t) (h₂ : FrameEnds n t u) : FrameEnds n s u :=
  Nat.zero_add n ▸ h₁.trans h₂

/-! ### Deadlines and control symbols end no frame -/

theorem rxTimeoutCheck_endsNone (now : Time) (s : State) : FrameEnds 0 s (rxTimeoutCheck now s) := by
  rcases rxTimeoutCheck_cases now s with ⟨-, e⟩ | ⟨-, e⟩ <;> rw [e]
  · exact ⟨_, rfl, rfl, Nat.le_refl 0⟩
  · exact .of_events_eq rfl

theorem ddchk_endsNone (now : Time) (s : State) : FrameEnds 0 s (ddchk now s) := by
  unfold ddchk
  split <;> exact .of_events_eq rfl

theorem retryOrFail_endsNone (c : RetryCause) (now : Time) (s : State) : FrameEnds 0 s (retryOrFail now c s) := by
  rcases retryOrFail_cases c now s with ⟨-, e⟩ | ⟨-, e⟩ <;> rw [e] <;> exact ⟨_, rfl, rfl, Nat.le_refl 0⟩

theorem txchk_endsNone (now : Time) (s : State) : FrameEnds 0 s (txchk now s) := by
  unfold txchk
  split
  · exact retryOrFail_endsNone .timeout now s
  · exact .of_events_eq rfl

theorem ctrlAck_endsNone (now : Time) (s : State) : FrameEnds 0 s (ctrlAck now s) := by
  cases hv : s.tx.valid with
  | true => rw [ctrlAck_of_busy hv]; exact ⟨_, rfl, rfl, Nat.le_refl 0⟩
  | false => rw [ctrlAck_of_stray hv]; exact ⟨_, rfl, rfl, Nat.le_refl 0⟩

theorem ctrlNak_endsNone (now : Time) (s : State) : FrameEnds 0 s (ctrlNak now s) := by
  cases hv : s.tx.valid with
  | true => rw [ctrlNak_of_busy hv]; exact retryOrFail_endsNone .nak now s
  | false => rw [ctrlNak_of_stray hv]; exact ⟨_, rfl, rfl, Nat.le_refl 0⟩

theorem ctrlCan_endsNone (now : Time) (s : State) : FrameEnds 0 s (ctrlCan now s) := by
  cases hv : s.tx.valid with
  | true => rw [ctrlCan_of_busy hv]; exact ⟨_, rfl, rfl, Nat.le_refl 0⟩
  | false => rw [ctrlCan_of_stray hv]; exact ⟨_, rfl, rfl, Nat.le_refl 0⟩

theorem execTransmit_endsNone {c : Byte} {k : Kind} {p : List Byte} (h : execTransmit c k p now s = .next t) :
    FrameEnds 0 s t := by
  rcases execTransmit_cases c k p now s with ⟨-, e⟩ | ⟨-, -, e⟩ | ⟨-, -, e⟩ <;> cases e.symm.trans h
  · exact .of_events_eq rfl
  · exact .of_events_eq rfl
  · exact ⟨_, rfl, rfl, Nat.le_refl 0⟩

/-! ### A byte ends a frame exactly when it is terminal -/

theorem ArmCase.frameEnds (hc : ArmCase b now s t term) : FrameEnds term.toNat s t := by
  cases hc with
  | leadSof | length | kind | command | payload => exact .of_events_eq rfl
  | stray | acked | resent | naked | cancelled | noise => exact ⟨_, rfl, rfl, Nat.le_refl 0⟩
  | badLength | checksumFailed | badKind | suppress => exact ⟨_, rfl, rfl, Nat.zero_le 1⟩
  | deliver => exact ⟨_, rfl, rfl, Nat.le_refl 1⟩

theorem rxByte_frameEnds (b : Byte) (now : Time) (s : State) :
    FrameEnds (rxByte b now s).2.toNat s (rxByte b now s).1 :=
  (rxTimeoutCheck_endsNone now s).none_trans (rxArm_cases b now _).frameEnds

/-! ### The feed loop stops at a terminal byte -/

theorem feedLoop_of_terminal (h : (rxByte b now { s with rxq := q }).2 = true) :
    feedLoop now (b :: q) s = (rxByte b now { s with rxq := q }).1 := if_pos h

theorem feedLoop_of_open (h : (rxByte b now { s with rxq := q }).2 = false) :
    feedLoop now (b :: q) s = feedLoop now q (rxByte b now { s with rxq := q }).1 := if_neg (ne_true_of_eq_false h)

/-- The feed loop ends at most one frame, leaves a tail of the bytes, and leaves bytes only after an end (R201). -/
theorem feedLoop_frameEnds (now : Time) (q : List Byte) (s : State) :
    ∃ n ≤ 1, FrameEnds n s (feedLoop now q s) ∧ (feedLoop now q s).rxq <:+ q ∧
      ((feedLoop now q s).rxq ≠ [] → n = 1) := by
  induction q generalizing s with
  | nil => exact ⟨0, Nat.zero_le 1, .of_events_eq rfl, List.suffix_rfl, fun h => absurd rfl h⟩
  | cons b q ih =>
    have hb : FrameEnds _ s (rxByte b now { s with rxq := q }).1 := rxByte_frameEnds b now { s with rxq := q }
    cases ht : (rxByte b now { s with rxq := q }).2 with
    | true =>
      rw [feedLoop_of_terminal ht, (rxByte_env _ now b).1]
      rw [ht] at hb
      exact ⟨1, Nat.le_refl 1, hb, List.suffix_cons b q, fun _ => rfl⟩
    | false =>
      rw [feedLoop_of_open ht]
      obtain ⟨n, hn, hf, hq, hleft⟩ := ih (rxByte b now { s with rxq := q }).1
      rw [ht] at hb
      exact ⟨n, hn, hb.none_trans hf, hq.trans (List.suffix_cons b q), hleft⟩

/-! ### POLL -/

/-- Around the feed loop a POLL runs the three timers only, which end no frame. -/
theorem pollSteps_frameEnds (h : FrameEnds n (ddchk now s) (feedLoop now (ddchk now s).rxq (ddchk now s))) :
    FrameEnds n s (pollSteps now s) :=
  (ddchk_endsNone now s).none_trans
    (h.trans_none ((rxTimeoutCheck_endsNone now _).trans_none (txchk_endsNone now _)))

theorem pollSteps_rxq (now : Time) (s : State) :
    (pollSteps now s).rxq = (feedLoop now (ddchk now s).rxq (ddchk now s)).rxq :=
  (txchk_rxq now _).trans (rxTimeoutCheck_rxq now _)

/-- Settles O38: the feed loop is the only step of POLL that ends a frame or takes from the queue. -/
theorem atMostOneFrameEndsInAPoll : Obligations.AtMostOneFrameEndsInAPoll := by
  rintro s t now ⟨⟩
  obtain ⟨n, hn, hf, hq, hleft⟩ := feedLoop_frameEnds now (ddchk now s).rxq (ddchk now s)
  obtain ⟨es, he, hends, hdel⟩ := pollSteps_frameEnds hf
  rw [← pollSteps_rxq, ddchk_rxq] at hq
  rw [← pollSteps_rxq] at hleft
  exact ⟨es, he, hends ▸ hn, hdel.trans hn, hq, fun h => hends.trans (hleft h)⟩

/-! ### A byte timeout of 0 -/

/-- A byte in `WaitSof` is never terminal (R132). -/
theorem ArmCase.not_terminal (hc : ArmCase b now s t term) (hs : s.rx.state = .waitSof) : term = false := by
  cases hc with
  | badLength h | checksumFailed h | badKind h | suppress _ h | deliver _ h => rw [hs] at h; cases h
  | _ => rfl

theorem rxByte_byteTimeoutMs (b : Byte) (now : Time) (s : State) :
    (rxByte b now s).1.byteTimeoutMs = s.byteTimeoutMs := by
  obtain ⟨-, -, -, h⟩ := settings_eq_iff.1 (rxByte_effects b now s).settings
  exact h

section ZeroTimeout

variable (hT : s.byteTimeoutMs = 0#16)
include hT

/-- Every byte in a frame is late (R273). -/
theorem rxTimeoutCheck_waitSof_of_zero (now : Time) : (rxTimeoutCheck now s).rx.state = .waitSof := by
  by_cases hs : s.rx.state = .waitSof
  · rwa [rxTimeoutCheck_none (.inl hs)]
  · rw [rxTimeoutCheck_fires hs (hT ▸ Nat.zero_le _), idle_state]

theorem rxByte_not_terminal_of_zero (b : Byte) (now : Time) : (rxByte b now s).2 = false :=
  (rxArm_cases b now _).not_terminal (rxTimeoutCheck_waitSof_of_zero hT now)

theorem rxByte_endsNone_of_zero (b : Byte) (now : Time) : FrameEnds 0 s (rxByte b now s).1 := by
  have h := rxByte_frameEnds b now s
  rwa [rxByte_not_terminal_of_zero hT] at h

theorem rxBytes_endsNone_of_zero (now : Time) (bs : List Byte) (term : Bool) :
    FrameEnds 0 s (rxBytes now bs (s, term)).1 := by
  induction bs generalizing s term with
  | nil => exact .of_events_eq rfl
  | cons b bs ih =>
    exact (rxByte_endsNone_of_zero hT b now).trans_none (ih ((rxByte_byteTimeoutMs b now s).trans hT) _)

theorem feedLoop_endsNone_of_zero (now : Time) (q : List Byte) : FrameEnds 0 s (feedLoop now q s) := by
  induction q generalizing s with
  | nil => exact .of_events_eq rfl
  | cons b q ih =>
    have hq : ({ s with rxq := q } : State).byteTimeoutMs = 0#16 := hT
    rw [feedLoop_of_open (rxByte_not_terminal_of_zero hq b now)]
    exact FrameEnds.none_trans (rxByte_endsNone_of_zero hq b now) (ih ((rxByte_byteTimeoutMs b now _).trans hq))

theorem pollSteps_endsNone_of_zero (now : Time) : FrameEnds 0 s (pollSteps now s) := by
  refine pollSteps_frameEnds (feedLoop_endsNone_of_zero ?_ now _)
  obtain ⟨-, -, -, h⟩ := settings_eq_iff.1 (ddchk_effects now s).settings
  exact h.trans hT

theorem exec_endsNone_of_zero (hi : ∀ f now, i ≠ .screen f now) (h : exec i s = .next t) : FrameEnds 0 s t := by
  cases i with
  | data u now => cases h; exact rxBytes_endsNone_of_zero hT now _ false
  | ack | nak | can | noise | rxbyte => cases h; exact rxByte_endsNone_of_zero hT _ _
  | poll now => cases h; exact pollSteps_endsNone_of_zero hT now
  | transmit => exact execTransmit_endsNone h
  | screen f now => exact absurd rfl (hi f now)
  | rxidle now => cases h; exact rxTimeoutCheck_endsNone now s
  | ctrlAck now => cases h; exact ctrlAck_endsNone now s
  | ctrlNak now => cases h; exact ctrlNak_endsNone now s
  | ctrlCan now => cases h; exact ctrlCan_endsNone now s
  | txchk now => cases h; exact txchk_endsNone now s
  | ddchk now => cases h; exact ddchk_endsNone now s
  | getAckTimeout | setAckTimeout | getByteTimeout | setByteTimeout | reservedOp6 | reservedOp7 | checksum | encode
  | decode | classify | reset => cases h; exact .of_events_eq rfl

end ZeroTimeout

/-- Settles O57: where no frame ends, none is delivered. -/
theorem zeroByteTimeoutStopsReception : Obligations.ZeroByteTimeoutStopsReception := by
  intro i s t hT hi h
  obtain ⟨es, he, hends, hdel⟩ := exec_endsNone_of_zero hT hi h
  exact ⟨es, he, hends, Nat.le_zero.1 hdel⟩

end Sys2Proof.Machine
end

section
/-! PROOFS. The completions of accepted transmissions (R162, R164 to R166, R170): over every elementary effect, and so over every
operation but RESET, the transmissions outstanding, accepted and completed balance. -/

namespace Sys2Proof.Machine

variable {s t u : State} {i : Instr} {now : Time} {b : Byte} {term : Bool} {m n : Nat}

/-- How many transmissions are outstanding: none or one. -/
def State.outstanding (s : State) : Nat := if s.tx.valid then 1 else 0

/-- Between two states `n` transmissions are accepted: the completions and what is outstanding after make up what was
outstanding before and the `n`, and there are as many acknowledgements as successes. -/
def Completes (n : Nat) (s t : State) : Prop :=
  ∃ es, t.events = s.events ++ es ∧ es.countP Event.isTxDone + t.outstanding = s.outstanding + n ∧
    es.count .txAcked = es.count (.txDone .success)

theorem Completes.trans (h₁ : Completes m s t) (h₂ : Completes n t u) : Completes (m + n) s u := by
  obtain ⟨es₁, e₁, hd₁, ha₁⟩ := h₁
  obtain ⟨es₂, e₂, hd₂, ha₂⟩ := h₂
  refine ⟨es₁ ++ es₂, by rw [e₂, e₁, List.append_assoc], ?_, ?_⟩
  · rw [List.countP_append]; omega
  · rw [List.count_append, List.count_append, ha₁, ha₂]

/-- The transmission is left as it is, and no completion is emitted. -/
theorem Completes.none {es : List Event} (he : t.events = s.events ++ es) (hv : t.tx.valid = s.tx.valid)
    (hd : es.countP Event.isTxDone = 0) (ha : es.count .txAcked = es.count (.txDone .success)) : Completes 0 s t :=
  ⟨es, he, by rw [hd, State.outstanding, State.outstanding, hv, Nat.zero_add, Nat.add_zero], ha⟩

theorem Completes.of_events_eq (he : t.events = s.events) (hv : t.tx.valid = s.tx.valid) : Completes 0 s t :=
  .none (es := []) (by rw [he, List.append_nil]) hv rfl rfl

/-- The Outstanding Transmission ends with one completion. -/
theorem Completes.done {es : List Event} (hv : s.tx.valid = true) (he : t.events = s.events ++ es)
    (hc : t.tx = Outstanding.cleared) (hd : es.countP Event.isTxDone = 1)
    (ha : es.count .txAcked = es.count (.txDone .success)) : Completes 0 s t :=
  ⟨es, he, by simp [State.outstanding, hv, hc, hd], ha⟩

theorem ArmCase.completes (hc : ArmCase b now s t term) : Completes 0 s t := by
  cases hc with
  | leadSof | length | kind | command | payload => exact .of_events_eq rfl rfl
  | stray | resent | noise | badLength | checksumFailed | badKind | suppress | deliver => exact .none rfl rfl rfl rfl
  | acked _ _ hv | naked _ _ hv | cancelled _ _ hv => exact .done hv rfl rfl rfl rfl

theorem Effect.completes (he : Effect s t) : Completes 0 s t := by
  cases he with
  | arm hc => exact hc.completes
  | recordEnd | popped => exact .of_events_eq rfl rfl
  | rxTimeout | stray | resent | suppressed => exact .none rfl rfl rfl rfl
  | acked hv | cancelled hv => exact .done hv rfl rfl rfl rfl
  | failed c hv => cases c <;> exact .done hv rfl rfl rfl rfl

theorem Effects.completes (he : Effects s t) : Completes 0 s t := by
  induction he with
  | refl => exact .of_events_eq rfl rfl
  | tail _ h ih => exact ih.trans h.completes

theorem ExecCase.completes (hc : ExecCase s i t) (hi : i ≠ .reset) :
    Completes (if t.result = .transmit .accepted then 1 else 0) s t := by
  cases hc with
  | effects r he hr _ => rw [if_neg hr]; exact he.completes
  | delivered f now _ => exact .none rfl rfl rfl rfl
  | accepted c k p now hv _ => exact ⟨_, rfl, by simp [State.outstanding, hv, Machine.accepted, Event.isTxDone], rfl⟩
  | setAck | setByte => exact .of_events_eq rfl rfl
  | reset => exact absurd rfl hi

/-- Settles O31: each effect, and so each operation, keeps the balance; RESET alone drops a transmission silently. -/
theorem everyAcceptedFrameHasOneCompletion : Obligations.EveryAcceptedFrameHasOneCompletion :=
  fun _ _ _ _ _ hi he => (exec_cases he).completes hi

end Sys2Proof.Machine
end

section
/-! PROOFS. The Transmit/ACK Controller's operations (R160 to R166), and the run of polls that a silent peer gets (R169). -/

namespace Sys2Proof.Machine

variable {s : State} {now : Time} {c : Byte} {k : Kind} {p : List Byte} {bs : List Byte} {n : Nat}

/-! ### TRANSMIT -/

theorem exec_transmit_busy (hv : s.tx.valid = true) :
    exec (.transmit c k p now) s = .next { s with result := .transmit .busy } := by
  simp only [exec, execTransmit, State.busy, hv, if_true, finish]

theorem exec_transmit_tooLarge (hv : s.tx.valid = false) (hp : 177 < p.length) :
    exec (.transmit c k p now) s = .next { s with result := .transmit .payloadTooLarge } := by
  simp only [exec, execTransmit, State.busy, hv, Bool.false_eq_true, if_false, encodeFrame_of_lt c k hp, finish]

theorem exec_transmit_accepted (hv : s.tx.valid = false) (hp : p.length ≤ 177) : exec (.transmit c k p now) s =
    .next { accepted (frameBytes s.cfg c k p) now s with result := .transmit .accepted } := by
  rcases execTransmit_cases c k p now s with ⟨h, -⟩ | ⟨-, h, -⟩ | ⟨-, -, e⟩
  · rw [hv] at h; cases h
  · omega
  · exact e

/-- Settles O26: an accepted frame is written over what the buffer held. -/
theorem transmitAcceptsOneFrameAtATime : Obligations.TransmitAcceptsOneFrameAtATime := by
  intro s c k p now
  refine ⟨exec_transmit_busy, exec_transmit_tooLarge, fun hv hp => ?_⟩
  have hn : (frameBytes s.cfg c k p).length = p.length + 5 := length_frameBytes s.cfg c k p
  refine ⟨s.tx.buf.writeBytes 0 (frameBytes s.cfg c k p), _, encodeFrame_of_le c k hp, hn, ?_, fun a => ?_⟩
  · rw [exec_transmit_accepted hv hp, accepted, hn]; rfl
  · simp only [Memory.read_writeBytes, Nat.zero_le, true_and, Nat.zero_add, Nat.sub_zero]

/-! ### The control symbols and the ack deadline -/

/-- Settles O27: the retry count is not read. -/
theorem ackAndCancelCompleteAtOnce : Obligations.AckAndCancelCompleteAtOnce := by
  intro s now
  refine ⟨fun hv => ?_, fun hv => ?_, fun hv => ?_⟩ <;> simp only [exec, execCtrlAck, execCtrlNak, execCtrlCan]
  · rw [ctrlAck_of_busy hv]; rfl
  · rw [ctrlCan_of_busy hv]; rfl
  · rw [ctrlAck_of_stray hv, ctrlNak_of_stray hv, ctrlCan_of_stray hv]; exact ⟨rfl, rfl, rfl⟩

/-- Settles O28: one step of the retry budget. -/
theorem nakTakesAStepOfTheRetryBudget : Obligations.NakTakesAStepOfTheRetryBudget := by
  intro s now
  refine ⟨fun hv => ?_, fun hv hr hn => ?_, fun hv hr => ?_⟩
  · rw [exec, execCtrlNak, ctrlNak_of_stray hv]; rfl
  · rw [exec_ctrlNak_resent hv hr, resent_eq _ _ hn]
  · rw [exec, execCtrlNak, ctrlNak_of_busy hv, retryOrFail_of_le _ hr]; rfl

theorem txchk_of_early (h : s.tx.valid = false ∨ (now - s.tx.sendTime).toNat < s.ackTimeoutMs.toNat) :
    txchk now s = s := by
  refine if_neg fun hd => ?_
  obtain ⟨hv, ht⟩ := ackDeadline_iff.1 hd
  rcases h with h | h
  · rw [hv] at h; cases h
  · omega

theorem txchk_of_late (hv : s.tx.valid = true) (ht : s.ackTimeoutMs.toNat ≤ (now - s.tx.sendTime).toNat) :
    txchk now s = retryOrFail now .timeout s := if_pos (ackDeadline_iff.2 ⟨hv, ht⟩)

/-- Settles O29: one step of the retry budget, however late. -/
theorem ackDeadlineTakesAStepOfTheRetryBudget : Obligations.AckDeadlineTakesAStepOfTheRetryBudget := by
  intro s now
  refine ⟨fun h => ?_, fun hv ht => ⟨fun hr hn => ?_, fun hr => ?_⟩⟩
  · rw [exec, execTxchk, txchk_of_early h]; rfl
  · rw [exec_txchk_resent hv hr ht, resent_eq _ _ hn]
  · rw [exec, execTxchk, txchk_of_late hv ht, retryOrFail_of_le _ hr]; rfl

/-! ### Polls with nothing received -/

/-- DDCHK touches the Dedup Record only (R193). -/
theorem ddchk_eq (now : Time) (s : State) : ∃ d, ddchk now s = { s with dd := d } := by
  unfold ddchk
  split
  · exact ⟨_, rfl⟩
  · exact ⟨s.dd, rfl⟩

/-- CORE waits for the peer: the transmission of the bytes `bs` is outstanding, no byte is queued, and no frame is being
assembled. -/
structure Waiting (bs : List Byte) (s : State) : Prop where
  valid : s.tx.valid = true
  lenMax : s.tx.len.toNat ≤ 182
  bytes : s.tx.buf.readBytes 0 s.tx.len.toNat = bs
  idle : s.rx.state = .waitSof
  queue : s.rxq = []

section Silence

variable (h : Waiting bs s) (ht : s.ackTimeoutMs.toNat ≤ (now - s.tx.sendTime).toNat)
include h ht

/-- A poll at or after the ack deadline takes one step of the retry budget. -/
theorem Waiting.pollSteps_late : ∃ d, pollSteps now s = retryOrFail now .timeout { s with dd := d } := by
  obtain ⟨d, hd⟩ := ddchk_eq now s
  exact ⟨d, by rw [pollSteps_silent h.queue h.idle, hd, txchk_of_late (s := { s with dd := d }) h.valid ht]⟩

/-- While the budget lasts the poll sends the bytes again. -/
theorem Waiting.exec_poll_resends (hr : s.tx.retry.toNat < s.cfg.maxRetries.toNat) : ∃ d, exec (.poll now) s = .next { s with
    tx := { s.tx with retry := s.tx.retry + 1#8, sendTime := now }
    dd := d
    events := s.events ++ [.txBytes bs, .evRetransmit .timeout]
    result := .outcome .idle } := by
  obtain ⟨d, hd⟩ := h.pollSteps_late ht
  refine ⟨d, ?_⟩
  rw [exec, execPoll, hd, retryOrFail_of_lt (s := { s with dd := d }) _ hr, resent,
    loadTx_eq (s := { s with dd := d }) h.lenMax, h.bytes]
  simp only [List.drop_left]
  rfl

/-- After that the poll ends the transmission with a failure. -/
theorem Waiting.exec_poll_fails (hr : s.cfg.maxRetries.toNat ≤ s.tx.retry.toNat) : ∃ d, exec (.poll now) s = .next { s with
    tx := Outstanding.cleared
    dd := d
    events := s.events ++ [.txDone .failTimeout]
    result := .outcome .txTimeout } := by
  obtain ⟨d, hd⟩ := h.pollSteps_late ht
  refine ⟨d, ?_⟩
  rw [exec, execPoll, hd, retryOrFail_of_le (s := { s with dd := d }) _ hr]
  simp only [List.drop_left]
  rfl

end Silence

theorem runOps_cons_of_next {i : Instr} {is : List Instr} {t : State} (h : exec i s = .next t) :
    runOps (i :: is) s = runOps is t := by rw [runOps, h]

/-- With `n` steps of the budget left, `n + 1` late polls send the bytes `n` times and then fail, by induction on `n`. -/
theorem Waiting.runOps_polls (h : Waiting bs s) (hr : s.tx.retry.toNat + n = s.cfg.maxRetries.toNat) {ts : List Time}
    (hn : ts.length = n + 1)
    (ht : List.IsChain (fun a b => s.ackTimeoutMs.toNat ≤ (b - a).toNat) (s.tx.sendTime :: ts)) :
    ∃ t, runOps (ts.map .poll) s = .next t ∧ t.tx = Outstanding.cleared ∧ t.result = .outcome .txTimeout ∧
      t.events = s.events ++
        (List.replicate n [.txBytes bs, .evRetransmit .timeout]).flatten ++ [.txDone .failTimeout] := by
  induction n generalizing s ts with
  | zero =>
    obtain ⟨now, rfl⟩ := List.length_eq_one_iff.1 hn
    obtain ⟨d, e⟩ := h.exec_poll_fails (List.isChain_cons_cons.1 ht).1 (Nat.le_of_eq hr.symm)
    exact ⟨_, runOps_cons_of_next e, rfl, rfl, by simp⟩
  | succ n ih =>
    obtain ⟨now, ts, rfl⟩ := List.exists_cons_of_length_eq_add_one hn
    obtain ⟨hnow, hts⟩ := List.isChain_cons_cons.1 ht
    obtain ⟨d, e⟩ := h.exec_poll_resends hnow (by omega)
    have hretry : (s.tx.retry + 1#8).toNat = s.tx.retry.toNat + 1 := by
      have := s.cfg.maxRetries.isLt
      simp only [BitVec.toNat_add, BitVec.toNat_ofNat]; omega
    obtain ⟨t, hrun, htx, hres, hev⟩ := ih (s := { s with
        tx := { s.tx with retry := s.tx.retry + 1#8, sendTime := now }
        dd := d
        events := s.events ++ [.txBytes bs, .evRetransmit .timeout]
        result := .outcome .idle })
      ⟨h.valid, h.lenMax, h.bytes, h.idle, h.queue⟩ (by simp only [hretry]; omega) (Nat.succ.inj hn) hts
    refine ⟨t, (runOps_cons_of_next e).trans hrun, htx, hres, ?_⟩
    simp only [hev, List.replicate_succ, List.flatten_cons, List.append_assoc]

/-- An accepted TRANSMIT leaves CORE waiting, with the whole budget. -/
theorem waiting_accepted (hs : s.rx.state = .waitSof) (hq : s.rxq = []) (hn : bs.length ≤ 182) :
    Waiting bs { accepted bs now s with result := .transmit .accepted } := by
  have hl : (lenByte bs.length).toNat = bs.length := lenByte_toNat (by omega)
  refine ⟨rfl, hl.trans_le hn, ?_, hs, hq⟩
  simp only [accepted, hl, Memory.readBytes_writeBytes]

/-- Settles O30: the polls after an accepted TRANSMIT find the whole retry budget. -/
theorem silentPeerGetsEveryRetryAndOneFailure : Obligations.SilentPeerGetsEveryRetryAndOneFailure := by
  intro s c k p t₀ ts _ hv hs hq hp hn ht
  have hlen : (frameBytes s.cfg c k p).length ≤ 182 := by rw [length_frameBytes]; omega
  obtain ⟨t, hrun, htx, hres, hev⟩ :=
    (waiting_accepted (now := t₀) hs hq hlen).runOps_polls (Nat.zero_add _) hn ht
  refine ⟨t, _, encodeFrame_of_le c k hp, ?_, htx, hres, ?_⟩
  · exact (runOps_cons_of_next (exec_transmit_accepted hv hp)).trans hrun
  · simp only [hev, accepted, List.append_assoc, List.cons_append, List.nil_append]

end Sys2Proof.Machine
end

section
/-! PROOFS. The first operations after RESET (R260, R264). -/

namespace Sys2Proof.Machine

variable {s : State} {now : Time}

/-- A POLL with an empty queue and nothing to watch does nothing (R200, R241). -/
theorem exec_poll_of_quiet (hq : s.rxq = []) (hs : s.rx.state = .waitSof) (hv : s.tx.valid = false)
    (hd : s.dd.valid = false) : exec (.poll now) s = .next { s with result := .outcome .idle } := by
  have hdd : ddchk now s = s := if_neg (by simp [State.dedupEnded, hd])
  rw [exec, execPoll, pollSteps_silent hq hs, hdd, txchk_of_early (.inl hv)]
  simp only [List.drop_length]
  rfl

/-- Settles O45: after RESET the three sub-blocks are at rest. -/
theorem firstOperationsAfterReset : Obligations.FirstOperationsAfterReset := by
  rintro s t now hl ⟨⟩
  refine ⟨fun hq => exec_poll_of_quiet hq rfl rfl rfl, fun c k p hp => ⟨_, exec_transmit_accepted rfl hp, rfl⟩, rfl, rfl,
    fun f _ => ?_, ⟨_, exec_ack_of_waitSof hl rfl, congrArg State.events (ctrlAck_of_stray rfl)⟩,
    ⟨_, exec_nak_of_waitSof hl rfl, congrArg State.events (ctrlNak_of_stray rfl)⟩,
    ⟨_, exec_can_of_waitSof hl rfl, congrArg State.events (ctrlCan_of_stray rfl)⟩⟩
  have hnone : ¬ matchesRecord f { afterReset s with result := .none } := fun ⟨hv, _⟩ => nomatch hv
  obtain ⟨m, e, -⟩ := exec_screen_delivers (now := now) fun h => hnone h.1
  exact ⟨_, e, rfl⟩

end Sys2Proof.Machine
end

section
/-! PROOFS. Duplex (R171): the receive side neither reads nor writes the Outstanding Transmission. -/

namespace Sys2Proof.Machine

variable (x : Outstanding) (s : State) (now : Time) (b : Byte) (f : Frame)

/-- The state with another Outstanding Transmission. -/
def State.withTx (s : State) (x : Outstanding) : State := { s with tx := x }

theorem screen_withTx : screen f now (s.withTx x) = (screen f now s).withTx x := by
  unfold screen
  change (if (sameFrame f s && s.fresh now) = true then _ else _) = _
  split <;> rfl

theorem rxTimeoutCheck_withTx : rxTimeoutCheck now (s.withTx x) = (rxTimeoutCheck now s).withTx x := by
  unfold rxTimeoutCheck
  change (if s.byteDeadline now = true then _ else _) = _
  split <;> rfl

theorem armLength_withTx : armLength b now (s.withTx x) = ((armLength b now s).1.withTx x, (armLength b now s).2) := by
  unfold armLength
  split <;> rfl

theorem armPayload_withTx :
    armPayload b now (s.withTx x) = ((armPayload b now s).1.withTx x, (armPayload b now s).2) := by
  have hx : (s.withTx x).rx = s.rx := rfl
  unfold armPayload storeRx
  rw [hx]
  split <;> rfl

/-- The byte that ends a frame: what SCREEN does with the frame does not depend on the transmission, so neither does the arm. -/
theorem armChecksum_withTx :
    armChecksum b now (s.withTx x) = ((armChecksum b now s).1.withTx x, (armChecksum b now s).2) := by
  have hx : (s.withTx x).rx = s.rx := rfl
  have hc : (s.withTx x).cfg = s.cfg := rfl
  have hl : ∀ n, loadRx n (s.withTx x) = loadRx n s := fun _ => rfl
  simp only [armChecksum, hx, hc, hl]
  split
  · rfl
  · split
    · rfl
    · rw [show rxReset (s.withTx x) = (rxReset s).withTx x from rfl, screen_withTx]

/-- Past `WaitSof` no arm of RXBYTE reads or writes the transmission. -/
theorem rxArm_withTx (hs : s.rx.state ≠ .waitSof) :
    rxArm b now (s.withTx x) = ((rxArm b now s).1.withTx x, (rxArm b now s).2) := by
  unfold rxArm
  rw [show (s.withTx x).rx.state = s.rx.state from rfl]
  cases h : s.rx.state with
  | waitSof => exact absurd h hs
  | waitLength => exact armLength_withTx x s now b
  | waitKind => rfl
  | waitCommand => rfl
  | waitPayload => exact armPayload_withTx x s now b
  | waitChecksum => exact armChecksum_withTx x s now b

/-- An operation that with every transmission does the same beside it leaves its own as it is. -/
theorem independent_of_withTx {s : State} {i : Instr} {t : State} (h : ∀ x, exec i (s.withTx x) = .next (t.withTx x))
    (x : Outstanding) : ∃ t, exec i s = .next t ∧ t.tx = s.tx ∧ exec i { s with tx := x } = .next { t with tx := x } :=
  ⟨t.withTx s.tx, h s.tx, rfl, h x⟩

/-- Settles O56: each of the three operations does the same beside every transmission. -/
theorem receptionDoesNotDependOnTheTransmission : Obligations.ReceptionDoesNotDependOnTheTransmission := by
  rintro s x i (⟨f, now, rfl⟩ | ⟨now, rfl⟩ | ⟨b, now, rfl, hs, ht⟩)
  · refine independent_of_withTx (t := { screen f now s with result := .none }) (fun x => ?_) x
    rw [exec, execScreen, screen_withTx]; rfl
  · refine independent_of_withTx (t := { rxTimeoutCheck now s with result := .none }) (fun x => ?_) x
    rw [exec, execRxidle, rxTimeoutCheck_withTx]; rfl
  · refine independent_of_withTx (t := { (rxArm b now s).1 with result := .terminal (rxArm b now s).2 }) (fun x => ?_) x
    rw [exec_rxbyte_eq_arm (s := s.withTx x) (.inr ht), rxArm_withTx x s now b hs]; rfl

end Sys2Proof.Machine
end

section
/-! PROOFS. Duplicate Suppression (R190 to R196): what SCREEN answers for a frame that matches the Dedup Record and for one that
does not, what DDCHK answers, and the runs of two and three frames. -/

namespace Sys2Proof.Machine

variable {s t : State} {now : Time} {f g : Frame}

/-! ### SCREEN -/

/-- A record of at most 177 bytes (R40) is compared with the bytes its array holds. -/
theorem matchesRecord_iff_of_plen_le (hn : s.dd.plen.toNat ≤ 177) : matchesRecord f s ↔
    s.dd.valid = true ∧ s.dd.cmd = f.command ∧ s.dd.plen.toNat = f.payload.length ∧
      (List.range s.dd.plen.toNat).map s.dd.payload.read = f.payload := by
  rw [matchesRecord, loadDd_eq hn, Memory.readBytes_eq_map]

/-- A frame finds no record, or one of another command or payload (R190). -/
theorem not_matchesRecord_of_differs (hi : s.Inv) (h : s.dd.valid = false ∨ s.dd.cmd ≠ f.command ∨
    (List.range s.dd.plen.toNat).map s.dd.payload.read ≠ f.payload) : ¬ matchesRecord f s := by
  rw [matchesRecord_iff_of_plen_le hi.dd.plenMax]
  rintro ⟨hv, hc, -, hp⟩
  rcases h with h | h | h
  · rw [hv] at h; cases h
  · exact h hc
  · exact h hp

/-- Settles O32: the record matches and is fresh, or the frame is delivered. -/
theorem screenDeliversOrSuppresses : Obligations.ScreenDeliversOrSuppresses := by
  intro s f now hn hf
  have hm := matchesRecord_iff_of_plen_le (f := f) hn
  refine ⟨fun hsame hw => exec_screen_suppresses (hm.2 hsame) (fresh_iff.2 hw), fun h => ?_⟩
  have hd : ¬ (matchesRecord f s ∧ s.fresh now = true) := by rwa [hm, fresh_iff]
  simpa only [Nat.min_eq_left hf] using exec_screen_delivers hd

/-! ### DDCHK -/

/-- Settles O33: the two branches of DDCHK, by whether the window has ended. -/
theorem expiredRecordIsDropped : Obligations.ExpiredRecordIsDropped := by
  intro s now
  refine ⟨fun hv hw => ?expired, fun h => ?kept⟩
  case expired =>
    rw [exec, execDdchk, ddchk, if_pos (dedupEnded_iff.2 ⟨hv, hw⟩)]
    rfl
  case kept =>
    have hne : ¬ s.dedupEnded now = true := by
      rw [dedupEnded_iff]
      rintro ⟨hv, hw⟩
      rcases h with h | h
      · rw [hv] at h; cases h
      · omega
    rw [exec, execDdchk, ddchk, if_neg hne]
    rfl

/-! ### Runs of frames -/

/-- The state after SCREEN has delivered a frame (R191). -/
def afterDelivery (f : Frame) (now : Time) (s : State) : State := { delivered f now s with result := .none }

/-- The state after SCREEN has suppressed a frame (R192). -/
def afterSuppression (s : State) : State := { suppressed s with result := .none }

@[simp] theorem afterDelivery_events : (afterDelivery f now s).events =
    s.events ++ [.deliver f, .txBytes [s.cfg.ack], .evFrameReceived] := rfl

@[simp] theorem afterDelivery_cfg : (afterDelivery f now s).cfg = s.cfg := rfl

@[simp] theorem afterSuppression_events :
    (afterSuppression s).events = s.events ++ [.txBytes [s.cfg.ack], .evDupSuppressed] := rfl

@[simp] theorem afterSuppression_cfg : (afterSuppression s).cfg = s.cfg := rfl

theorem exec_screen_eq_afterDelivery (h : ¬ (matchesRecord f s ∧ s.fresh now = true)) :
    exec (.screen f now) s = .next (afterDelivery f now s) := by
  simp only [exec, execScreen, screen_delivers h]
  rfl

/-- After a delivery of `f` a frame of another command or payload is delivered at any time (R191, R196). -/
theorem exec_screen_of_differs_from_last {t₁ : Time} (hf : f.payload.length ≤ 177)
    (hne : f.command ≠ g.command ∨ f.payload ≠ g.payload) (now : Time) : exec (.screen g now) (afterDelivery f t₁ s) =
      .next (afterDelivery g now (afterDelivery f t₁ s)) := by
  refine exec_screen_eq_afterDelivery fun ⟨hm, _⟩ => ?_
  obtain ⟨hc, hp⟩ := (matchesRecord_delivered hf rfl).1 hm
  exact hne.elim (absurd hc) (absurd hp)

section SameFrameAgain

/-! The record is that of the delivery of `f` at `t₁`, whatever was suppressed since. -/

variable {t₁ : Time} (hd : t.dd = (delivered f t₁ s).dd)
include hd

theorem fresh_of_delivered : t.fresh now = true ↔ (now - t₁).toNat < t.cfg.dedupWindowMs.toNat := by
  rw [fresh_iff, hd]; rfl

theorem exec_screen_again_within_window (hf : f.payload.length ≤ 177) (hc : g.command = f.command)
    (hp : g.payload = f.payload) (hw : (now - t₁).toNat < t.cfg.dedupWindowMs.toNat) :
    exec (.screen g now) t = .next (afterSuppression t) :=
  exec_screen_suppresses ((matchesRecord_delivered hf hd).2 ⟨hc.symm, hp.symm⟩) ((fresh_of_delivered hd).2 hw)

theorem exec_screen_past_window (hw : ¬ (now - t₁).toNat < t.cfg.dedupWindowMs.toNat) :
    exec (.screen g now) t = .next (afterDelivery g now t) :=
  exec_screen_eq_afterDelivery fun ⟨_, hfresh⟩ => hw ((fresh_of_delivered hd).1 hfresh)

end SameFrameAgain

/-- Settles O34: the record is the first frame's when the second and the third arrive. -/
theorem secondIdenticalFrameIsNotDelivered : Obligations.SecondIdenticalFrameIsNotDelivered := by
  intro s f g h t₁ t₂ t₃ hi hf hs hgc hgp hhc hhp hw
  have first : exec (.screen f t₁) s = .next (afterDelivery f t₁ s) :=
    exec_screen_eq_afterDelivery fun hm => not_matchesRecord_of_differs hi hs hm.1
  have second : exec (.screen g t₂) (afterDelivery f t₁ s) = .next (afterSuppression (afterDelivery f t₁ s)) :=
    exec_screen_again_within_window (s := s) rfl hf hgc hgp hw
  have both : runOps [.screen f t₁, .screen g t₂] s = .next (afterSuppression (afterDelivery f t₁ s)) := by
    rw [runOps_cons_of_next first, runOps_singleton, second]
  by_cases hw₃ : (t₃ - t₁).toNat < s.cfg.dedupWindowMs.toNat
  · refine ⟨_, _, both, by simp, exec_screen_again_within_window (s := s) rfl hf hhc hhp hw₃, ?_⟩
    rw [if_pos hw₃]; rfl
  · refine ⟨_, _, both, by simp, exec_screen_past_window (f := f) (s := s) rfl hw₃, ?_⟩
    rw [if_neg hw₃]; rfl

/-- Settles O35: each frame finds no record or the record of a frame it differs from. -/
theorem onlyTheLastDeliveryIsRemembered : Obligations.OnlyTheLastDeliveryIsRemembered := by
  intro s a b t₁ t₂ t₃ hi ha hb hs hne
  have first : exec (.screen a t₁) s = .next (afterDelivery a t₁ s) :=
    exec_screen_eq_afterDelivery fun hm => not_matchesRecord_of_differs hi hs hm.1
  refine ⟨afterDelivery a t₃ (afterDelivery b t₂ (afterDelivery a t₁ s)), ?_, by simp⟩
  rw [runOps_cons_of_next first, runOps_cons_of_next (exec_screen_of_differs_from_last ha hne t₂), runOps_singleton,
    exec_screen_of_differs_from_last hb (hne.imp Ne.symm Ne.symm)]

end Sys2Proof.Machine
end

section
/-! PROOFS. The Poll Driver's outcome and its idle case (R200, R202, R241), and the accessors (R204 to R207). -/

namespace Sys2Proof.Machine

variable {s t : State} {now : Time} {e : Event} {es : List Event}

/-! ### The outcome of a list of events -/

theorem PollOutcome.code_le_max (a b : PollOutcome) :
    a.code.toNat ≤ (a.max b).code.toNat ∧ b.code.toNat ≤ (a.max b).code.toNat := by
  unfold PollOutcome.max
  split <;> omega

theorem PollOutcome.max_eq_or (a b : PollOutcome) : a.max b = a ∨ a.max b = b := by
  unfold PollOutcome.max
  split
  · exact .inr rfl
  · exact .inl rfl

/-- One event more takes the greater of the outcome so far and its own image. -/
theorem outcomeOf_concat (es : List Event) (e : Event) : outcomeOf (es ++ [e]) = (outcomeOf es).max e.outcome :=
  List.foldl_concat ..

theorem code_le_outcomeOf (he : e ∈ es) : e.outcome.code.toNat ≤ (outcomeOf es).code.toNat := by
  induction es using List.reverseRecOn with
  | nil => cases he
  | append_singleton es a ih =>
    obtain ⟨hl, hr⟩ := (outcomeOf es).code_le_max a.outcome
    rw [outcomeOf_concat]
    rcases List.mem_append.1 he with he | he
    · exact (ih he).trans hl
    · rwa [List.mem_singleton.1 he]

theorem outcomeOf_eq_idle_or_outcome (es : List Event) : outcomeOf es = .idle ∨ ∃ e ∈ es, e.outcome = outcomeOf es := by
  induction es using List.reverseRecOn with
  | nil => exact .inl rfl
  | append_singleton es a ih =>
    rw [outcomeOf_concat]
    rcases (outcomeOf es).max_eq_or a.outcome with h | h <;> rw [h]
    · exact ih.imp_right fun ⟨e, he, hm⟩ => ⟨e, List.mem_append_left _ he, hm⟩
    · exact .inr ⟨a, List.mem_append_right _ (List.mem_singleton_self a), rfl⟩

/-- The events a POLL adds are those its result is computed from (R202). -/
theorem exec_poll_outcome (h : exec (.poll now) s = .next t) :
    ∃ es, t.events = s.events ++ es ∧ t.result = .outcome (outcomeOf es) := by
  cases h
  obtain ⟨es, he⟩ := (pollSteps_effects now s).events
  refine ⟨es, he, ?_⟩
  change Result.outcome (outcomeOf ((pollSteps now s).events.drop s.events.length)) = _
  rw [he, List.drop_left]

/-- Settles O37: the outcome is the greatest of the images of the events added, and the table is the definition's. -/
theorem pollAnswersTheMostSignificantOutcome : Obligations.PollAnswersTheMostSignificantOutcome := by
  refine ⟨fun s t now h => ?greatest, ?table⟩
  case greatest =>
    obtain ⟨es, he, hr⟩ := exec_poll_outcome h
    exact ⟨es, outcomeOf es, he, hr, fun _ => code_le_outcomeOf, outcomeOf_eq_idle_or_outcome es⟩
  case table =>
    exact ⟨rfl, rfl, rfl, fun _ => rfl, fun _ => rfl, rfl, rfl, rfl, rfl, fun _ => rfl, fun _ => rfl, rfl, rfl, fun _ => rfl,
      fun _ => rfl, fun _ => rfl⟩

/-! ### POLL with nothing to do -/

/-- With no record, or one whose window has not ended, DDCHK does nothing (R193). -/
theorem ddchk_of_unexpired (h : s.dd.valid = false ∨ (now - s.dd.time).toNat < s.cfg.dedupWindowMs.toNat) :
    ddchk now s = s := by
  refine if_neg fun hd => ?_
  obtain ⟨hv, hw⟩ := dedupEnded_iff.1 hd
  rcases h with h | h
  · rw [hv] at h; cases h
  · omega

/-- Settles O39: neither timer fires, so no event is added. -/
theorem pollOfAnIdleCoreDoesNothing : Obligations.PollOfAnIdleCoreDoesNothing := by
  intro s now hq hs hv hd
  have hsteps : pollSteps now s = s := by
    rw [pollSteps_silent hq hs, ddchk_of_unexpired hd, txchk_of_early (.inl hv)]
  rw [exec, execPoll, hsteps]
  simp only [List.drop_length]
  rfl

/-! ### Accessors -/

/-- After a first operation that completes, a run of two is the second one. -/
theorem runOps_pair_of_next {i : Instr} (h : exec i s = .next t) (j : Instr) : runOps [i, j] s = exec j t :=
  (runOps_cons_of_next h).trans (runOps_singleton j t)

/-- Settles O40: each accessor by its meaning, and what follows a SET from the state the SET answers. -/
theorem accessorsReadAndWriteTheirRegister : Obligations.AccessorsReadAndWriteTheirRegister := by
  intro s v
  have setAck : exec (.setAckTimeout v) s = .next { s with ackTimeoutMs := v, result := .none } := rfl
  have setByte : exec (.setByteTimeout v) s = .next { s with byteTimeoutMs := v, result := .none } := rfl
  exact ⟨rfl, rfl, setAck, setByte, runOps_pair_of_next setAck _, runOps_pair_of_next setByte _, fun _ =>
    ⟨runOps_pair_of_next setAck _, runOps_pair_of_next setByte _, fun _ => runOps_pair_of_next setByte _⟩⟩

end Sys2Proof.Machine
end

section
/-! PROOFS. RESET (R260, R262). -/

namespace Sys2Proof.Machine

/-- RESET completes from every state, with no result: clearing the three sub-blocks one after the other is `afterReset`. -/
theorem exec_reset_eq_afterReset (s : State) : exec .reset s = .next { afterReset s with result := .none } := by
  have hclear : ddClear (txClear (rxReset
      { s with ackTimeoutMs := s.cfg.ackTimeoutReset, byteTimeoutMs := s.cfg.byteTimeoutReset })) = afterReset s := rfl
  rw [exec, execReset, hclear, finish]

/-- Settles O43: the state after RESET, with the three sub-blocks at rest written out register by register. -/
theorem resetSetsEveryRegister : Obligations.ResetSetsEveryRegister := by
  intro s
  rw [exec_reset_eq_afterReset, afterReset, RxAssembly.idle, Outstanding.cleared, DedupRecord.absent]

end Sys2Proof.Machine
end
